-- ==== Sys2Proof/Word.lean ====
section
/-! DEFINITION. The byte and the pixel record (00_scope.md R8, R10). -/

namespace Sys2Proof

/-- The unit of every byte space: 0..255, bit 7 most significant (00_scope.md R8, 20_memory.md R50). -/
abbrev Byte := BitVec 8

/-- A record of four bytes in the fixed order r, g, b, a (00_scope.md R10, 20_memory.md R53). -/
structure Pixel where
  r : Byte
  g : Byte
  b : Byte
  a : Byte
  deriving DecidableEq, Repr

end Sys2Proof
end

