-- ==== Sys2Proof/Config.lean ====
section
/-! DEFINITION. What the spec leaves to a configuration: the constants whose values the source does not
give (00_scope.md R6, 92_eei_decisions.md D20), and the free values (93_implementation_defined.md U8).
The values the model runs with are `standardConfig` in Sys2Proof/Decode.lean. -/

namespace Sys2Proof

/-- The constants of 00_scope.md R6: their roles are sourced, their values are not (log entry 1). -/
structure Config where
  magic     : List Byte
  eofMarker : List Byte
  tagRgb    : Byte
  tagRgba   : Byte
  deriving DecidableEq, Repr

/-- What the source does fix of those constants: MAGIC has four bytes (U1), EOF_MARKER is longer than any
token (U2), and the two exact tags are 0xFE and 0xFF in one of the two orders (30_encoding.md R84, U3). -/
abbrev Config.Legal (c : Config) : Prop :=
  c.magic.length = 4 ∧ 5 < c.eofMarker.length ∧
    ((c.tagRgb = 0xFE ∧ c.tagRgba = 0xFF) ∨ (c.tagRgb = 0xFF ∧ c.tagRgba = 0xFE))

/-- FREE VALUE: byte `slot` of draw number `draw`. It has no body, so no proof can see what it is (log entry 3). -/
opaque Config.freeByte : (draw slot : Nat) → Byte

/-- FREE VALUE: natural number `slot` of draw number `draw` (log entry 3). -/
opaque Config.freeNat : (draw slot : Nat) → Nat

end Sys2Proof
end

