-- ==== Sys2Proof/Syntax.lean ====
section
/-! DEFINITION. The instructions of this hardware: the six tokens, with decoded operands in the spec's own
syntax (30_encoding.md R96). -/

namespace Sys2Proof

/-- One constructor per row of spec/opcode_table.json, in its order (30_encoding.md R83). -/
inductive Instr where
  /-- `RGB r, g, b` (R91). -/
  | rgb (r g b : Byte)
  /-- `RGBA r, g, b, a` (R92). -/
  | rgba (r g b a : Byte)
  /-- `DIFF dr, dg, db`, each in −2..1 (R88). -/
  | diff (dr dg db : Int)
  /-- `LUMA dg, dr_dg, db_dg`, dg in −32..31, the others in −8..7 (R89). -/
  | luma (dg drdg dbdg : Int)
  /-- `RUN n`, n in 1..62 (R90). -/
  | run (n : Nat)
  /-- `INDEX k`, k in 0..63 (R87). -/
  | index (k : Fin 64)
  deriving DecidableEq, Repr

end Sys2Proof
end

