-- ==== Sys2Proof/WellFormed.lean ====
section
/-! DEFINITION. Which operands an encoding admits (30_encoding.md R87 to R92, R96). -/

namespace Sys2Proof

/-- `lo ≤ x ≤ hi`. -/
abbrev inRange (lo hi x : Int) : Bool := decide (lo ≤ x) && decide (x ≤ hi)

/-- The operand ranges of 30_encoding.md R96. RGB, RGBA and INDEX admit every value of their operand types. -/
def Instr.wf : Instr → Bool
  | .rgb _ _ _        => true
  | .rgba _ _ _ _     => true
  | .diff dr dg db    => inRange (-2) 1 dr && inRange (-2) 1 dg && inRange (-2) 1 db
  | .luma dg drdg dbdg => inRange (-32) 31 dg && inRange (-8) 7 drdg && inRange (-8) 7 dbdg
  | .run n            => decide (1 ≤ n) && decide (n ≤ 62)
  | .index _          => true

end Sys2Proof
end

