-- ==== Sys2Proof/Decode.lean ====
section
/-! DEFINITION. The token decoder, total on any bytes (30_encoding.md R80 to R95), and after it the encoder
(the function `Asm` of R96). Also the values of the unsourced constants (00_scope.md R6), which stand here
so that an audit can change a value. -/

namespace Sys2Proof

/-- The default values of 00_scope.md R6 (PRESUMED: general knowledge, not in the source; log entry 1). -/
def standardConfig : Config where
  magic     := [0x71, 0x6F, 0x69, 0x66]
  eofMarker := [0x00, 0x00, 0x00, 0x00, 0x00, 0x00, 0x00, 0x01]
  tagRgb    := 0xFE
  tagRgba   := 0xFF

/-- `b[hi:lo]`: the natural number formed by bits hi down to lo of `b` (00_scope.md R8). -/
def field (b : Byte) (hi lo : Nat) : Nat := b.toNat / 2 ^ lo % 2 ^ (hi - lo + 1)

/-- `u8(x) = x mod 256` as a byte (00_scope.md R9). -/
def u8 (x : Int) : Byte := BitVec.ofInt 8 x

/-- The six classes of a first byte. -/
inductive TokenClass where
  | rgb | rgba | diff | luma | run | index
  deriving DecidableEq, Repr

/-- The class of a token (the row of the opcode table it belongs to). -/
def Instr.tokenClass : Instr → TokenClass
  | .rgb _ _ _    => .rgb
  | .rgba _ _ _ _ => .rgba
  | .diff _ _ _   => .diff
  | .luma _ _ _   => .luma
  | .run _        => .run
  | .index _      => .index

/-- The classification order of 30_encoding.md R83: the exact tags first, then the 2-bit prefixes. -/
def classify (c : Config) (b0 : Byte) : TokenClass :=
  if b0 = c.tagRgb then .rgb
  else if b0 = c.tagRgba then .rgba
  else if field b0 7 6 = 1 then .diff
  else if field b0 7 6 = 2 then .luma
  else if field b0 7 6 = 3 then .run
  else .index

/-- Bytes in a token of a class (30_encoding.md R86). -/
def tokenLength : TokenClass → Nat
  | .rgb   => 4
  | .rgba  => 5
  | .diff  => 1
  | .luma  => 2
  | .run   => 1
  | .index => 1

/-- Why bytes are no whole token: there is no illegal first byte (30_encoding.md R93), only too few bytes. -/
inductive DecodeError where
  /-- No byte is left. -/
  | noByte
  /-- The first byte begins a token of this class, whose operand bytes are missing. -/
  | operandsMissing (k : TokenClass)
  deriving DecidableEq, Repr

/-- Operand assembly (30_encoding.md R87 to R92) of a token of class `k` whose first byte is `b0`. -/
def assemble (k : TokenClass) (b0 : Byte) (rest : List Byte) : Except DecodeError (Instr × List Byte) :=
  match k, rest with
  | .rgb, r :: g :: b :: rest'       => .ok (.rgb r g b, rest')
  | .rgb, _                          => .error (.operandsMissing .rgb)
  | .rgba, r :: g :: b :: a :: rest' => .ok (.rgba r g b a, rest')
  | .rgba, _                         => .error (.operandsMissing .rgba)
  | .diff, rest' =>
      .ok (.diff ((field b0 5 4 : Int) - 2) ((field b0 3 2 : Int) - 2) ((field b0 1 0 : Int) - 2), rest')
  | .luma, b1 :: rest' =>
      .ok (.luma ((field b0 5 0 : Int) - 32) ((field b1 7 4 : Int) - 8) ((field b1 3 0 : Int) - 8), rest')
  | .luma, []                        => .error (.operandsMissing .luma)
  | .run, rest'                      => .ok (.run (field b0 5 0 + 1), rest')
  | .index, rest'                    => .ok (.index (Fin.ofNat 64 (field b0 5 0)), rest')

/-- The token at the head of a byte sequence and the bytes after it. -/
def decode (c : Config) : List Byte → Except DecodeError (Instr × List Byte)
  | []         => .error .noByte
  | b0 :: rest => assemble (classify c b0) b0 rest

/-- The bytes of a token (the table of 30_encoding.md R96). -/
def encode (c : Config) : Instr → List Byte
  | .rgb r g b         => [c.tagRgb, r, g, b]
  | .rgba r g b a      => [c.tagRgba, r, g, b, a]
  | .diff dr dg db     => [u8 (0x40 + 16 * (dr + 2) + 4 * (dg + 2) + (db + 2))]
  | .luma dg drdg dbdg => [u8 (0x80 + (dg + 32)), u8 (16 * (drdg + 8) + (dbdg + 8))]
  | .run n             => [u8 (0xC0 + ((n : Int) - 1))]
  | .index k           => [u8 (k.val : Int)]

/-- The longest token, in bytes (RGBA). -/
def maxTokenLength : Nat := 5

/-- An instruction's bits `w`, numbered as the opcode table numbers them, as the bytes of the token stream:
byte k is bits 8k+7..8k, and every bit at or above `nbits` is 0. -/
def tableBytes (nbits w : Nat) : List Byte :=
  (List.range maxTokenLength).map fun k => BitVec.ofNat 8 (w % 2 ^ nbits / 2 ^ (8 * k))

/-- The instruction the decoder reads from those bytes. -/
def decodeTableWord (nbits w : Nat) : Option Instr :=
  match decode standardConfig (tableBytes nbits w) with
  | .ok (i, _) => some i
  | .error _   => none

end Sys2Proof
end

