-- ==== Sys2Proof/Machine/Operands.lean ====
section
/-! DEFINITION. The constants of 00_scope.md R5, and the pure functions on pixels and bytes: hash
(40_hash_and_shared_update.md R120), channel deltas (R123, R124), the pixels that delta operands stand for
(43_decoder.md R205, R206), and big-endian integers (20_memory.md R52). -/

namespace Sys2Proof.Machine

/-- `PREV_INIT` (00_scope.md R5; 90_conflicts.md C10). -/
def prevInit : Pixel := ⟨0, 0, 0, 0⟩

/-- `CACHE_INIT` (00_scope.md R5). -/
def cacheInit : Pixel := ⟨0, 0, 0, 0⟩

/-- `RUN_MAX` (00_scope.md R5). -/
def runMax : Nat := 62

/-- `HEADER_LEN` (00_scope.md R5). -/
def headerLen : Nat := 14

/-- `CH_LEGAL` (00_scope.md R5). -/
def channelsLegal (x : Byte) : Bool := x == 3 || x == 4

/-- `CS_LEGAL` (00_scope.md R5). -/
def colorspaceLegal (x : Byte) : Bool := x == 0 || x == 1

/-- The sum of R120, over the natural numbers. -/
def hashSum (p : Pixel) : Nat := 3 * p.r.toNat + 5 * p.g.toNat + 7 * p.b.toNat + 11 * p.a.toNat

/-- `hash(p)` (R120): one reduction, after the sum. -/
def pixelHash (p : Pixel) : Fin 64 := Fin.ofNat 64 (hashSum p)

/-- `s8(x)`: the signed reading of the low 8 bits (00_scope.md R9). -/
def s8 (x : Int) : Int := if x % 256 < 128 then x % 256 else x % 256 - 256

/-- `delta(new, old)` (R123). -/
def delta (new old : Byte) : Int := s8 ((new.toNat : Int) - (old.toNat : Int))

/-- `apply(old, d) = (old + d) mod 256` (R124). -/
def applyDelta (old : Byte) (d : Int) : Byte := u8 ((old.toNat : Int) + d)

/-- The pixel at the given channel deltas from `prev`, alpha copied (R126). -/
def applyDeltas (prev : Pixel) (dr dg db : Int) : Pixel where
  r := applyDelta prev.r dr
  g := applyDelta prev.g dg
  b := applyDelta prev.b db
  a := prev.a

/-- `BE32(v)` (20_memory.md R52). -/
def be32 (v : BitVec 32) : List Byte :=
  [BitVec.ofNat 8 (v.toNat / 2 ^ 24), BitVec.ofNat 8 (v.toNat / 2 ^ 16),
    BitVec.ofNat 8 (v.toNat / 2 ^ 8), BitVec.ofNat 8 v.toNat]

/-- `unBE32([c0, c1, c2, c3])` (20_memory.md R52). -/
def unBe32 (c0 c1 c2 c3 : Byte) : BitVec 32 :=
  BitVec.ofNat 32 (c0.toNat * 2 ^ 24 + c1.toNat * 2 ^ 16 + c2.toNat * 2 ^ 8 + c3.toNat)

end Sys2Proof.Machine
end

