-- ==== Sys2Proof/Machine/State.lean ====
section
/-! DEFINITION. The machine's state as plain data (10_state.md), its stop reasons, and the state after
power-on reset (10_state.md R35, 70_reset_and_hazards.md R301). -/

namespace Sys2Proof.Machine

/-- `status` (10_state.md R28). -/
inductive Status where
  | idle | run | done | fault
  deriving DecidableEq, Repr

/-- The two failure kinds (60_exceptions.md R260). -/
inductive FailureKind where
  | invalidImage | invalidFormat
  deriving DecidableEq, Repr

/-- The causes of 60_exceptions.md R262, in its order. -/
inductive Cause where
  | badGeometry | badChannels | badColorspace
  | noEndMarker | hdrLength | badMagic | hdrChannels | hdrColorspace | hdrZeroSize
  | truncated | runOverrun
  deriving DecidableEq, Repr

/-- The header fields (41_header_codec.md R140), kept as written (10_state.md R30). -/
structure Header where
  width      : BitVec 32
  height     : BitVec 32
  channels   : Byte
  colorspace : Byte
  deriving DecidableEq, Repr

/-- The core-facing image `{width, height, channels, colorspace, pixels}` (44_file_framing.md R241). -/
structure Image where
  hdr    : Header
  pixels : List Pixel
  deriving DecidableEq, Repr

/-- What both units hold, each its own copy: the previous pixel (10_state.md R21) and the 64-slot hash
cache (R23). -/
structure History where
  prev  : Pixel
  cache : Vector Pixel 64
  deriving DecidableEq, Repr

/-- Byte space `TIN`: (address, byte) cells in canonical form (`Memory.wf` in Machine/Ops.lean). -/
abbrev Memory := List Host.Cell

/-- The encoder ENC: `enc.status`, `enc.prev`, `enc.cache`, `enc.run`, `enc.ip`, `PIN`, `TOUT`. -/
structure Enc extends History where
  status : Status
  run    : Nat
  ip     : Nat
  pin    : List Pixel
  tout   : List Byte
  deriving DecidableEq, Repr

/-- The decoder DEC: `dec.status`, `dec.cause` (`none` is NONE), `dec.prev`, `dec.cache`, `dec.ip`,
`dec.op`, `dec.NPIX`, `dec.TLEN`, `TIN`, `POUT`. -/
structure Dec extends History where
  status : Status
  cause  : Option Cause
  ip     : Nat
  op     : Nat
  npix   : Nat
  tlen   : Nat
  tin    : Memory
  pout   : List Pixel
  deriving DecidableEq, Repr

/-- Which operation of the framing layer is in progress, with what it already holds (MODEL'S OWN, log entry 9). -/
inductive FrmPhase where
  | idle
  /-- `Encode`, its 14 header bytes made (44_file_framing.md R242). -/
  | encoding (hdrBytes : List Byte)
  /-- `Decode`, its header read (44_file_framing.md R244). -/
  | decoding (h : Header)
  deriving DecidableEq, Repr

/-- The framing layer: `frm.status`, `frm.cause`, `hdr.*`, `FILE`, and the model's own phase and result. -/
structure Framer where
  status : Status
  cause  : Option Cause
  hdr    : Header
  file   : List Byte
  phase  : FrmPhase
  result : Option Image
  deriving DecidableEq, Repr

/-- What a host can ask (44_file_framing.md R247) and write (10_state.md R30, 70_reset_and_hazards.md R302). -/
inductive HostCmd where
  | encStart
  | encPush (p : Pixel)
  | encFinish
  | decStart
  | writeNpix (n : Nat)
  | writeTlen (n : Nat)
  | writeTin (addr : Nat) (bytes : List Byte)
  | writeHdr (h : Header)
  /-- `Encode` of the image with header fields `hdr.*` and these pixels (log entry 12). -/
  | encode (pixels : List Pixel)
  | decode (file : List Byte)
  deriving DecidableEq, Repr

/-- What comes next from outside (log entry 5). -/
inductive Input where
  | cmd (c : HostCmd)
  /-- DEC takes its next step, if one is enabled. -/
  | decTurn
  /-- The framing layer takes its next step, if one is enabled. -/
  | frmTurn
  /-- Power-on reset (70_reset_and_hazards.md R301; log entry 16). -/
  | powerOn
  deriving DecidableEq, Repr

/-- The agents that can `raise` (60_exceptions.md R264): the cause register each writes is R29's. -/
inductive Raiser where
  | dec | frm
  deriving DecidableEq, Repr

/-- The whole machine. `inputs` and `free` are the model's own (log entries 5 and 3). -/
structure State where
  enc    : Enc
  dec    : Dec
  frm    : Framer
  inputs : List Input
  free   : Nat
  deriving DecidableEq, Repr

/-- Why the machine stops. -/
inductive Fault where
  /-- Raised by `step` alone: no input is pending and no agent has an enabled step (every unit is IDLE, DONE or
  FAULT), the treatment "stuck" of 93_implementation_defined.md part 1. Safe: the hardware waits for its host (log entry 6). -/
  | noStepEnabled
  deriving DecidableEq, Repr

/-- Why an instruction has no meaning. -/
inductive Refusal where
  /-- Raised by an arm of `exec` whose instruction has no meaning in the model. Safe. No arm raises it here. -/
  | notModelled (mnemonic : String)
  deriving DecidableEq, Repr

/-- The pixel that registers hold after power-on reset (DESIGN CHOICE, log entry 2). -/
def resetPixel : Pixel := ⟨0, 0, 0, 0⟩

/-- `prev` and `cache` after power-on reset (DESIGN CHOICE, log entry 2). -/
def History.reset : History where
  prev  := resetPixel
  cache := Vector.replicate 64 resetPixel

/-- ENC after power-on reset: `status` IDLE, `TOUT` empty (R301); the rest log entries 2 and 8. -/
def Enc.reset : Enc where
  toHistory := History.reset
  status := .idle
  run    := 0
  ip     := 0
  pin    := []
  tout   := []

/-- DEC after power-on reset: `status` IDLE, `cause` NONE, `POUT` empty (R301); the rest log entries 2 and 4. -/
def Dec.reset : Dec where
  toHistory := History.reset
  status := .idle
  cause  := none
  ip     := 0
  op     := 0
  npix   := 0
  tlen   := 0
  tin    := []
  pout   := []

/-- FRM after power-on reset: `cause` NONE, `FILE` empty (R301); the rest log entries 2 and 9. -/
def Framer.reset : Framer where
  status := .idle
  cause  := none
  hdr    := ⟨0, 0, 0, 0⟩
  file   := []
  phase  := .idle
  result := none

/-- The machine right after power-on reset (10_state.md R35, 70_reset_and_hazards.md R301). -/
def State.reset : State where
  enc    := Enc.reset
  dec    := Dec.reset
  frm    := Framer.reset
  inputs := []
  free   := 0

end Sys2Proof.Machine
end

