-- ==== Sys2Proof/Machine/Ops.lean ====
section
/-! DEFINITION. The named operations over memory and registers that every step uses: the byte space `TIN`
(20_memory.md), the shared post-token update (40_hash_and_shared_update.md R128), `start`
(70_reset_and_hazards.md R300), `raise` (60_exceptions.md R261), the common tail of a token
(43_decoder.md R209), and power-on reset (R301). -/

namespace Sys2Proof.Machine

/-! ## The byte space TIN -/

/-- What an address of `TIN` that nothing has written reads as (DESIGN CHOICE, log entry 4). -/
def unlistedByte : Byte := 0x00

/-- The canonical form: addresses strictly rising, no entry equal to what an unlisted address reads as. -/
abbrev Memory.wf (m : Memory) : Prop :=
  m.Pairwise (fun x y => x.1 < y.1) ∧ ∀ x ∈ m, x.2 ≠ unlistedByte

/-- One byte of the space. -/
def Memory.read : Memory → Nat → Byte
  | [], _            => unlistedByte
  | (a', b) :: m, a  => if a' = a then b else Memory.read m a

/-- Put a cell in front, unless it says what an unlisted address says anyway. -/
def Memory.cons (a : Nat) (b : Byte) (m : Memory) : Memory :=
  if b = unlistedByte then m else (a, b) :: m

/-- Store one byte, keeping the canonical form. -/
def Memory.write : Memory → Nat → Byte → Memory
  | [], a, b => Memory.cons a b []
  | (a', b') :: m, a, b =>
      if a < a' then Memory.cons a b ((a', b') :: m)
      else if a = a' then Memory.cons a b m
      else (a', b') :: Memory.write m a b

/-- `MemRead(S, addr, n)` (00_scope.md R11). -/
def memRead (m : Memory) (addr n : Nat) : List Byte := (List.range n).map fun i => m.read (addr + i)

/-- `MemWrite(S, addr, n, v)` (00_scope.md R11). -/
def memWrite (m : Memory) (addr : Nat) : List Byte → Memory
  | []      => m
  | b :: bs => memWrite (m.write addr b) (addr + 1) bs

/-- The space whose first bytes are `t`, nothing else written. -/
def memOfBytes (t : List Byte) : Memory := memWrite [] 0 t

/-! ## Replacing one unit of the state -/

/-- The state with another ENC. -/
def State.setEnc (e : Enc) (s : State) : State := { s with enc := e }

/-- The state with another DEC. -/
def State.setDec (d : Dec) (s : State) : State := { s with dec := d }

/-- The state with another framing layer. -/
def State.setFrm (f : Framer) (s : State) : State := { s with frm := f }

/-- The state with another list of pending inputs. -/
def State.setInputs (l : List Input) (s : State) : State := { s with inputs := l }

/-! ## prev and cache -/

/-- `prev` and `cache` at the start of a run (10_state.md R35). -/
def History.init : History where
  prev  := prevInit
  cache := Vector.replicate 64 cacheInit

/-- `cache[hash(p)] <- p` (10_state.md R23: no rule writes a slot at any other index). -/
def History.store (p : Pixel) (h : History) : History :=
  { h with cache := h.cache.set (pixelHash p).val p (pixelHash p).isLt }

/-- `Update(u, px)` (40_hash_and_shared_update.md R128). -/
def History.update (px : Pixel) (h : History) : History :=
  { h.store px with prev := px }

/-! ## Free values -/

/-- A free pixel: four free bytes of one draw (log entry 3). -/
def freePixel (draw slot : Nat) : Pixel :=
  ⟨Config.freeByte draw (4 * slot), Config.freeByte draw (4 * slot + 1),
    Config.freeByte draw (4 * slot + 2), Config.freeByte draw (4 * slot + 3)⟩

/-- `prev` and `cache` with unspecified contents (93_implementation_defined.md U8; log entry 3). -/
def freeHistory (draw : Nat) : History where
  prev  := freePixel draw 64
  cache := Vector.ofFn fun k => freePixel draw k.val

/-! ## start -/

/-- `start(ENC)` (70_reset_and_hazards.md R300). -/
def encStart (e : Enc) : Enc :=
  { e with toHistory := History.init, run := 0, ip := 0, tout := [], status := .run }

/-- `start(DEC)` (70_reset_and_hazards.md R300): with `NPIX` = 0 the run is DONE at once (43_decoder.md R200). -/
def decStart (d : Dec) : Dec :=
  { d with
    toHistory := History.init, ip := 0, op := 0, pout := [], cause := none
    status := if d.npix = 0 then .done else .run }

/-! ## raise, and there is no return from it (60_exceptions.md R269) -/

/-- `raise K(c)` (60_exceptions.md R261): `status` and `cause` are written and what the run has put out is
discarded. In DEC, `prev`, `cache` and the indices are unspecified afterwards (43_decoder.md R213): free values.
In the framing layer the operation in progress ends without a result. -/
def raise (u : Raiser) (c : Cause) (s : State) : State :=
  match u with
  | .dec =>
      { s with
        dec := { s.dec with
          toHistory := freeHistory s.free
          ip := Config.freeNat s.free 0
          op := Config.freeNat s.free 1
          pout := [], status := .fault, cause := some c }
        free := s.free + 1 }
  | .frm =>
      { s with frm := { s.frm with status := .fault, cause := some c, phase := .idle, result := none } }

/-! ## The common tail of a token -/

/-- `tail(px, n, L)` (43_decoder.md R209). -/
def Dec.tail (px : Pixel) (n len : Nat) (d : Dec) : Dec :=
  { d with
    pout := d.pout ++ List.replicate n px
    toHistory := d.toHistory.update px
    ip := d.ip + len
    op := d.op + n
    status := if d.op + n = d.npix then .done else d.status }

/-- The part of the token step that every token shares once its pixel `px`, count `n` and length `len` are
known (43_decoder.md R201): the overrun test, then the tail. -/
def produce (px : Pixel) (n len : Nat) (s : State) : Host.Outcome State Fault Refusal :=
  if s.dec.npix < s.dec.op + n then .next (raise .dec .runOverrun s)
  else .next (s.setDec (s.dec.tail px n len))

/-! ## Power-on reset -/

/-- Power-on reset of a running machine (70_reset_and_hazards.md R301, 10_state.md R35): `status` IDLE, `cause`
NONE, outputs empty; every other register unspecified, so a free value. `PIN` and `TIN` are the host's and keep
what they hold (log entry 16). -/
def powerOnReset (s : State) : State :=
  { enc :=
      { toHistory := freeHistory s.free
        status := .idle
        run := Config.freeNat s.free 0
        ip := Config.freeNat s.free 1
        pin := s.enc.pin
        tout := [] }
    dec :=
      { toHistory := freeHistory (s.free + 1)
        status := .idle
        cause := none
        ip := Config.freeNat s.free 2
        op := Config.freeNat s.free 3
        npix := Config.freeNat s.free 4
        tlen := Config.freeNat s.free 5
        tin := s.dec.tin
        pout := [] }
    frm :=
      { status := .idle
        cause := none
        hdr :=
          { width := BitVec.ofNat 32 (Config.freeNat s.free 6)
            height := BitVec.ofNat 32 (Config.freeNat s.free 7)
            channels := Config.freeByte s.free 260
            colorspace := Config.freeByte s.free 261 }
        file := []
        phase := .idle
        result := none }
    inputs := s.inputs
    free := s.free + 2 }

end Sys2Proof.Machine
end

