-- ==== Sys2Proof/Machine/Encoder.lean ====
section
/-! DEFINITION. The encoder ENC (42_encoder.md): the pixel step with its fixed priority RUN, INDEX, DIFF, LUMA,
RGB or RGBA (R161), `finish` (R171), and the whole run (R172). -/

namespace Sys2Proof.Machine

/-- `Emit(TOUT, bytes)` (00_scope.md R11). -/
def Enc.emit (bytes : List Byte) (e : Enc) : Enc := { e with tout := e.tout ++ bytes }

/-- Emit the RUN token of the pending pixels and clear the counter (42_encoder.md R162, R163, R171). -/
def Enc.emitRun (c : Config) (e : Enc) : Enc := { e.emit (encode c (.run e.run)) with run := 0 }

/-- Emit it where pixels are pending (42_encoder.md R163, R171). -/
def Enc.flushRun (c : Config) (e : Enc) : Enc := if 0 < e.run then e.emitRun c else e

/-- The DIFF range test (42_encoder.md R166). -/
def diffFits (dr dg db : Int) : Bool := inRange (-2) 1 dr && inRange (-2) 1 dg && inRange (-2) 1 db

/-- The LUMA range test (42_encoder.md R167). -/
def lumaFits (dr dg db : Int) : Bool :=
  inRange (-32) 31 dg && inRange (-8) 7 (dr - dg) && inRange (-8) 7 (db - dg)

/-- DIFF, LUMA, RGB or RGBA for a pixel that is neither `prev` nor held by its slot (42_encoder.md R166 to R169). -/
def chooseToken (prev p : Pixel) : Instr :=
  if p.a = prev.a then
    let dr := delta p.r prev.r
    let dg := delta p.g prev.g
    let db := delta p.b prev.b
    if diffFits dr dg db then .diff dr dg db
    else if lumaFits dr dg db then .luma dg (dr - dg) (db - dg)
    else .rgb p.r p.g p.b
  else .rgba p.r p.g p.b p.a

/-- A pixel equal to `prev` (42_encoder.md R162). -/
def Enc.countPixel (c : Config) (e : Enc) : Enc :=
  let e := { e with run := e.run + 1 }
  if e.run = runMax then e.emitRun c else e

/-- INDEX where the slot holds the pixel; otherwise the store before the choice, then the choice
(42_encoder.md R164, R165). -/
def Enc.emitPixel (c : Config) (p : Pixel) (e : Enc) : Enc :=
  if e.cache[pixelHash p] = p then e.emit (encode c (.index (pixelHash p)))
  else { e with toHistory := e.toHistory.store p }.emit (encode c (chooseToken e.prev p))

/-- The post-token update (42_encoder.md R170). -/
def Enc.update (p : Pixel) (e : Enc) : Enc := { e with toHistory := e.toHistory.update p }

/-- `EncPixel(p)` (42_encoder.md R161). -/
def encPixel (c : Config) (p : Pixel) (e : Enc) : Enc :=
  let e := if p = e.prev then e.countPixel c else ((e.flushRun c).emitPixel c p).update p
  { e with ip := e.ip + 1 }

/-- `EncFinish()` (42_encoder.md R171). -/
def encFinish (c : Config) (e : Enc) : Enc := { e.flushRun c with status := .done }

/-- The pixel steps of a sequence, in order. -/
def encPixels (c : Config) (pixels : List Pixel) (e : Enc) : Enc :=
  pixels.foldl (fun e p => encPixel c p e) e

/-- The whole run of 42_encoder.md R172, to its end. -/
def encodeRun (c : Config) (pixels : List Pixel) : Enc :=
  encFinish c (encPixels c pixels (encStart Enc.reset))

/-- `EncodeTokens(pixels)` (42_encoder.md R172). -/
def encodeTokens (c : Config) (pixels : List Pixel) : List Byte := (encodeRun c pixels).tout

end Sys2Proof.Machine
end

