-- ==== Sys2Proof/Machine/Flags.lean ====
section
/-! DEFINITION. The hardware has no condition codes (10_state.md R28). What it has of flags are `status` and
`cause`: the value a cause register reads as (60_exceptions.md R262), when a step is enabled
(43_decoder.md R200), and what is a result (70_reset_and_hazards.md R303). -/

namespace Sys2Proof.Machine

/-- The kind of a cause (60_exceptions.md R262). -/
def Cause.kind : Cause → FailureKind
  | .badGeometry   => .invalidImage
  | .badChannels   => .invalidImage
  | .badColorspace => .invalidImage
  | .noEndMarker   => .invalidFormat
  | .hdrLength     => .invalidFormat
  | .badMagic      => .invalidFormat
  | .hdrChannels   => .invalidFormat
  | .hdrColorspace => .invalidFormat
  | .hdrZeroSize   => .invalidFormat
  | .truncated     => .invalidFormat
  | .runOverrun    => .invalidFormat

/-- The number of a kind (60_exceptions.md R262). -/
def FailureKind.number : FailureKind → Nat
  | .invalidImage  => 1
  | .invalidFormat => 2

/-- The code of a cause within its kind (60_exceptions.md R262). -/
def Cause.code : Cause → Nat
  | .badGeometry   => 1
  | .badChannels   => 2
  | .badColorspace => 3
  | .noEndMarker   => 1
  | .hdrLength     => 2
  | .badMagic      => 3
  | .hdrChannels   => 4
  | .hdrColorspace => 5
  | .hdrZeroSize   => 6
  | .truncated     => 7
  | .runOverrun    => 8

/-- What `cause` reads as: `256·kind + code`, `NONE` = 0 (60_exceptions.md R262). -/
def causeWord : Option Cause → Nat
  | none   => 0
  | some k => 256 * k.kind.number + k.code

/-- A token step is enabled while `dec.status` = RUN and `dec.op` < `NPIX` (43_decoder.md R200). -/
def decEnabled (d : Dec) : Bool := d.status == .run && decide (d.op < d.npix)

/-- `Encode` holds ENC until it ends (log entry 10). -/
def encOwned (s : State) : Bool :=
  match s.frm.phase with
  | .encoding _ => true
  | .decoding _ => false
  | .idle       => false

/-- `Decode` holds DEC until it ends (log entry 10). -/
def decOwned (s : State) : Bool :=
  match s.frm.phase with
  | .decoding _ => true
  | .encoding _ => false
  | .idle       => false

/-- The result of an ENC run: `TOUT` at DONE and nothing before (70_reset_and_hazards.md R303). -/
def encResult (e : Enc) : Option (List Byte) :=
  match e.status with
  | .done  => some e.tout
  | .idle  => none
  | .run   => none
  | .fault => none

/-- The result of a DEC run: `POUT` at DONE, the failure at FAULT, nothing before (70_reset_and_hazards.md R303). -/
def decResult (d : Dec) : Option (Except Cause (List Pixel)) :=
  match d.status, d.cause with
  | .done, _       => some (.ok d.pout)
  | .fault, some k => some (.error k)
  | .fault, none   => none
  | .idle, _       => none
  | .run, _        => none

end Sys2Proof.Machine
end

