-- ==== Sys2Proof/Machine/HeaderCodec.lean ====
section
/-! DEFINITION. The header codec (41_header_codec.md): two pure functions. -/

namespace Sys2Proof.Machine

/-- `NPIX = width · height`, over the natural numbers (41_header_codec.md R147, 92_eei_decisions.md D5). -/
def Header.pixelCount (h : Header) : Nat := h.width.toNat * h.height.toNat

/-- `EncodeHeader` (41_header_codec.md R141). -/
def encodeHeader (c : Config) (h : Header) : Except Cause (List Byte) :=
  if !channelsLegal h.channels then .error .badChannels
  else if !colorspaceLegal h.colorspace then .error .badColorspace
  else .ok (c.magic ++ be32 h.width ++ be32 h.height ++ [h.channels] ++ [h.colorspace])

/-- The fields of 14 header bytes, before any test (41_header_codec.md R140). -/
def headerFields (h : List Byte) : Header where
  width      := unBe32 (h.getD 4 0) (h.getD 5 0) (h.getD 6 0) (h.getD 7 0)
  height     := unBe32 (h.getD 8 0) (h.getD 9 0) (h.getD 10 0) (h.getD 11 0)
  channels   := h.getD 12 0
  colorspace := h.getD 13 0

/-- `DecodeHeader` (41_header_codec.md R143). -/
def decodeHeader (c : Config) (h : List Byte) : Except Cause Header :=
  if h.length ≠ headerLen then .error .hdrLength
  else if h.take 4 ≠ c.magic then .error .badMagic
  else if !channelsLegal (headerFields h).channels then .error .hdrChannels
  else if !colorspaceLegal (headerFields h).colorspace then .error .hdrColorspace
  else if (headerFields h).pixelCount = 0 then .error .hdrZeroSize
  else .ok (headerFields h)

end Sys2Proof.Machine
end

