-- ==== Sys2Proof/Machine/Framing.lean ====
section
/-! DEFINITION. The framing layer (44_file_framing.md): the tests `Encode` and `Decode` make before a token engine
runs, how each begins, and the framing layer's own steps while one is in progress (log entry 9). -/

namespace Sys2Proof.Machine

/-- The tests of `Encode` and the header bytes it makes (44_file_framing.md R242). -/
def encodeChecks (c : Config) (img : Image) : Except Cause (List Byte) :=
  if img.hdr.pixelCount = 0 then .error .badGeometry
  else if img.pixels.length ≠ img.hdr.pixelCount then .error .badGeometry
  else encodeHeader c img.hdr

/-- `Encode(img)` as a function (44_file_framing.md R242). -/
def encodeFile (c : Config) (img : Image) : Except Cause (List Byte) :=
  match encodeChecks c img with
  | .error k     => .error k
  | .ok hdrBytes => .ok (hdrBytes ++ encodeTokens c img.pixels ++ c.eofMarker)

/-- The tests of `Decode`: the marker, then the header; what is left is the token stream (44_file_framing.md R244). -/
def decodeChecks (c : Config) (file : List Byte) : Except Cause (Header × List Byte) :=
  let n := file.length
  if n < c.eofMarker.length then .error .noEndMarker
  else if file.drop (n - c.eofMarker.length) ≠ c.eofMarker then .error .noEndMarker
  else
    let body := file.take (n - c.eofMarker.length)
    if body.length < headerLen then .error .hdrLength
    else
      match decodeHeader c (body.take headerLen) with
      | .error k => .error k
      | .ok h    => .ok (h, body.drop headerLen)

/-- `TIN` = t, `TLEN` = len(t), `NPIX` = n, then `start` (43_decoder.md R212). -/
def decSetup (t : List Byte) (n : Nat) (d : Dec) : Dec :=
  decStart { d with tin := memOfBytes t, tlen := t.length, npix := n }

/-- `Encode` begins: the old result is gone; a failed test raises; otherwise ENC is started on the pixels. -/
def beginEncode (c : Config) (pixels : List Pixel) (s : State) : State :=
  let s := s.setFrm { s.frm with file := [], result := none }
  match encodeChecks c ⟨s.frm.hdr, pixels⟩ with
  | .error k     => raise .frm k s
  | .ok hdrBytes =>
      (s.setFrm { s.frm with status := .run, cause := none, phase := .encoding hdrBytes }).setEnc
        (encStart { s.enc with pin := pixels })

/-- `Decode` begins: the old result is gone; a failed test raises; otherwise DEC is started on the tokens. -/
def beginDecode (c : Config) (file : List Byte) (s : State) : State :=
  let s := s.setFrm { s.frm with file := file, result := none }
  match decodeChecks c file with
  | .error k   => raise .frm k s
  | .ok (h, t) =>
      (s.setFrm { s.frm with status := .run, cause := none, phase := .decoding h }).setDec
        (decSetup t h.pixelCount s.dec)

/-- The framing layer's next step, or `none` where it has none. `Encode`: ENC takes the next pixel of `PIN`, or
`finish` after the last; at DONE the file is put together. `Decode`: it waits for DEC and returns the image at DONE,
or fails with DEC's cause at FAULT. -/
def frmNext (c : Config) (s : State) : Option State :=
  match s.frm.phase with
  | .idle => none
  | .encoding hdrBytes =>
      match s.enc.status with
      | .run =>
          match s.enc.pin[s.enc.ip]? with
          | some p => some (s.setEnc (encPixel c p s.enc))
          | none   => some (s.setEnc (encFinish c s.enc))
      | .done =>
          some (s.setFrm { s.frm with
            status := .done, phase := .idle, file := hdrBytes ++ s.enc.tout ++ c.eofMarker })
      | .idle  => none
      | .fault => none
  | .decoding h =>
      match decResult s.dec with
      | some (.ok pixels) =>
          some (s.setFrm { s.frm with status := .done, phase := .idle, result := some ⟨h, pixels⟩ })
      | some (.error k) => some (raise .frm k s)
      | none            => none

end Sys2Proof.Machine
end

