-- ==== Sys2Proof/Machine/Commands.lean ====
section
/-! DEFINITION. What each host command does (44_file_framing.md R247, 70_reset_and_hazards.md R302). A command out of
order is refused: it has no effect (R304). -/

namespace Sys2Proof.Machine

/-- `start` of ENC: refused while a run is in progress; the host's pixel sequence begins anew (log entry 8). -/
def cmdEncStart (s : State) : State :=
  if encOwned s || s.enc.status == .run then s
  else s.setEnc (encStart { s.enc with pin := [] })

/-- Push of one pixel: the next pixel of `PIN`, and its pixel step (42_encoder.md R160). -/
def cmdEncPush (c : Config) (p : Pixel) (s : State) : State :=
  if encOwned s || s.enc.status != .run then s
  else s.setEnc (encPixel c p { s.enc with pin := s.enc.pin ++ [p] })

/-- `finish` of ENC (42_encoder.md R171). -/
def cmdEncFinish (c : Config) (s : State) : State :=
  if encOwned s || s.enc.status != .run then s
  else s.setEnc (encFinish c s.enc)

/-- May the host start DEC or write its configuration and `TIN` now? Not during a run (R304, log entry 11). -/
def decFree (s : State) : Bool := !decOwned s && s.dec.status != .run

/-- `start` of DEC (43_decoder.md R200). -/
def cmdDecStart (s : State) : State :=
  if decFree s then s.setDec (decStart s.dec) else s

/-- The host writes `dec.NPIX` (10_state.md R30). -/
def cmdWriteNpix (n : Nat) (s : State) : State :=
  if decFree s then s.setDec { s.dec with npix := n } else s

/-- The host writes `dec.TLEN` (10_state.md R30). -/
def cmdWriteTlen (n : Nat) (s : State) : State :=
  if decFree s then s.setDec { s.dec with tlen := n } else s

/-- The host writes bytes of `TIN` (70_reset_and_hazards.md R302). -/
def cmdWriteTin (addr : Nat) (bytes : List Byte) (s : State) : State :=
  if decFree s then s.setDec { s.dec with tin := memWrite s.dec.tin addr bytes } else s

/-- The host writes the header fields; an illegal value is kept as written (10_state.md R30). -/
def cmdWriteHdr (h : Header) (s : State) : State :=
  if s.frm.status == .run then s else s.setFrm { s.frm with hdr := h }

/-- `Encode` (44_file_framing.md R242): refused while the framing layer or ENC is in a run (log entry 10). -/
def cmdEncode (c : Config) (pixels : List Pixel) (s : State) : State :=
  if s.frm.status == .run || s.enc.status == .run then s else beginEncode c pixels s

/-- `Decode` (44_file_framing.md R244): refused while the framing layer or DEC is in a run (log entry 10). -/
def cmdDecode (c : Config) (file : List Byte) (s : State) : State :=
  if s.frm.status == .run || s.dec.status == .run then s else beginDecode c file s

/-- The effect of a host command. -/
def hostCommand (c : Config) (cmd : HostCmd) (s : State) : State :=
  match cmd with
  | .encStart        => cmdEncStart s
  | .encPush p       => cmdEncPush c p s
  | .encFinish       => cmdEncFinish c s
  | .decStart        => cmdDecStart s
  | .writeNpix n     => cmdWriteNpix n s
  | .writeTlen n     => cmdWriteTlen n s
  | .writeTin a bs   => cmdWriteTin a bs s
  | .writeHdr h      => cmdWriteHdr h s
  | .encode pixels   => cmdEncode c pixels s
  | .decode file     => cmdDecode c file s

end Sys2Proof.Machine
end

