-- ==== Sys2Proof/Machine/Tokens.lean ====
section
/-! DEFINITION. What DEC does with each of the six tokens (43_decoder.md R203 to R208): the pixel and the count it
stands for, its length, and the shared rest of the token step (`produce`). -/

namespace Sys2Proof.Machine

/-- RGB (43_decoder.md R203). -/
def execRgb (r g b : Byte) (s : State) : Host.Outcome State Fault Refusal :=
  produce ⟨r, g, b, s.dec.prev.a⟩ 1 4 s

/-- RGBA (43_decoder.md R204). -/
def execRgba (r g b a : Byte) (s : State) : Host.Outcome State Fault Refusal :=
  produce ⟨r, g, b, a⟩ 1 5 s

/-- DIFF (43_decoder.md R205). -/
def execDiff (dr dg db : Int) (s : State) : Host.Outcome State Fault Refusal :=
  produce (applyDeltas s.dec.prev dr dg db) 1 1 s

/-- LUMA (43_decoder.md R206): the red and blue deltas are formed over the integers and reduced once. -/
def execLuma (dg drdg dbdg : Int) (s : State) : Host.Outcome State Fault Refusal :=
  produce (applyDeltas s.dec.prev (dg + drdg) dg (dg + dbdg)) 1 2 s

/-- RUN (43_decoder.md R207). -/
def execRun (n : Nat) (s : State) : Host.Outcome State Fault Refusal :=
  produce s.dec.prev n 1 s

/-- INDEX (43_decoder.md R208). -/
def execIndex (k : Fin 64) (s : State) : Host.Outcome State Fault Refusal :=
  produce s.dec.cache[k] 1 1 s

end Sys2Proof.Machine
end

