-- ==== Sys2Proof/Machine/Fetch.lean ====
section
/-! DEFINITION. Fetching a token from `TIN` (43_decoder.md R201), and laying one where it will be fetched. -/

namespace Sys2Proof.Machine

/-- The token at `dec.ip`, or the failure TRUNCATED where the stream ends before it or inside it
(43_decoder.md R201, R202). No byte at or above `TLEN` is read (20_memory.md R58). -/
def fetch (c : Config) (d : Dec) : Except Cause Instr :=
  if d.tlen ≤ d.ip then .error .truncated
  else
    let len := tokenLength (classify c (d.tin.read d.ip))
    if d.tlen < d.ip + len then .error .truncated
    else
      match decode c (memRead d.tin d.ip len) with
      | .ok (i, _) => .ok i
      | .error _   => .error .truncated

/-- The bytes of a table word at `dec.ip`, with what the fetch and the token need around them: a stream that is long
enough, room for the longest token's pixels, DEC in a run, and no input that would go first (log entry 7). -/
def placeToken (nbits w : Nat) (s : State) : State :=
  { s with
    dec := { s.dec with
      tin := memWrite s.dec.tin s.dec.ip (tableBytes nbits w)
      tlen := max s.dec.tlen (s.dec.ip + maxTokenLength)
      npix := max s.dec.npix (s.dec.op + runMax)
      status := .run
      cause := none }
    inputs := [] }

end Sys2Proof.Machine
end

