-- ==== Sys2Proof/Machine/Schedule.lean ====
section
/-! DEFINITION. The token step (43_decoder.md R201), which agent takes the next step (log entry 5), the whole DEC
run (R212) and `Decode` as a function (44_file_framing.md R244). -/

namespace Sys2Proof.Machine

/-- `DecToken()` (43_decoder.md R201). -/
def decToken (c : Config) (s : State) : Host.Outcome State Fault Refusal :=
  match fetch c s.dec with
  | .ok i    => exec i s
  | .error k => .next (raise .dec k s)

/-- DEC's turn: its token step where one is enabled (43_decoder.md R200). -/
def decTurn (c : Config) (s : State) : Host.Outcome State Fault Refusal :=
  if decEnabled s.dec then decToken c s else .next s

/-- The framing layer's turn: its step where it has one. -/
def frmTurn (c : Config) (s : State) : Host.Outcome State Fault Refusal :=
  match frmNext c s with
  | some s' => .next s'
  | none    => .next s

/-- With no input pending: DEC's token step, else the framing layer's step, else no step is enabled. -/
def ownStep (c : Config) (s : State) : Host.Outcome State Fault Refusal :=
  if decEnabled s.dec then decToken c s
  else
    match frmNext c s with
    | some s' => .next s'
    | none    => .fault .noStepEnabled

/-- One step: the oldest pending input, or else the machine's own next step (log entry 5). -/
def stepWith (c : Config) (s : State) : Host.Outcome State Fault Refusal :=
  match s.inputs with
  | []               => ownStep c s
  | .cmd x :: rest   => .next (hostCommand c x (s.setInputs rest))
  | .decTurn :: rest => decTurn c (s.setInputs rest)
  | .frmTurn :: rest => frmTurn c (s.setInputs rest)
  | .powerOn :: rest => .next (powerOnReset (s.setInputs rest))

/-- At most `n` token steps, while one is enabled. -/
def decSteps (c : Config) : Nat → State → State
  | 0, s     => s
  | n + 1, s =>
      if decEnabled s.dec then
        match decToken c s with
        | .next s'   => decSteps c n s'
        | .fault _   => s
        | .refused _ => s
      else s

/-- The DEC run of 43_decoder.md R212 from state `s`: the stream and the sizes, `start`, token steps to the end
(at most one for each pixel, R211). -/
def decodeRunFrom (c : Config) (t : List Byte) (n : Nat) (s : State) : State :=
  decSteps c n (s.setDec (decSetup t n s.dec))

/-- `DecodeTokens(t, N)` (43_decoder.md R212); `none` would be a run that has not ended (there is none, R211). -/
def decodeTokens (c : Config) (t : List Byte) (n : Nat) : Option (Except Cause (List Pixel)) :=
  decResult (decodeRunFrom c t n State.reset).dec

/-- `Decode(file)` as a function (44_file_framing.md R244). -/
def decodeFile (c : Config) (file : List Byte) : Option (Except Cause Image) :=
  match decodeChecks c file with
  | .error k   => some (.error k)
  | .ok (h, t) =>
      match decodeTokens c t h.pixelCount with
      | some (.ok pixels) => some (.ok ⟨h, pixels⟩)
      | some (.error k)   => some (.error k)
      | none              => none

end Sys2Proof.Machine
end

