-- ==== Sys2Proof/Machine/Step.lean ====
section
/-! DEFINITION. One step of the machine, and a state whose next step runs a given table word. -/

namespace Sys2Proof.Machine

/-- One step, with the standard constants (00_scope.md R6). -/
def step (s : State) : Host.Outcome State Fault Refusal := stepWith standardConfig s

/-- `s` with the instruction of a table word where the next step fetches and runs it (log entry 7). -/
def State.withFetchWord (s : State) (nbits w : Nat) : State := placeToken nbits w s

end Sys2Proof.Machine
end

