-- ==== Sys2Proof/Safety.lean ====
section
/-! DEFINITION. The terms that claims about runs are stated in: the invariants of a run (10_state.md R22 to R26), what
"one token has been executed", "DEC has failed" and "ENC has emitted" mean field by field, and "DEC is about to
take a token step". -/

namespace Sys2Proof.Machine

/-! ## Invariants -/

/-- The cache content invariant (10_state.md R24). -/
def History.SlotsHold (h : History) : Prop :=
  ∀ k : Fin 64, h.cache[k] = cacheInit ∨ pixelHash h.cache[k] = k

/-- The previous-pixel invariant (10_state.md R25). -/
def History.PrevHeld (h : History) : Prop := h.cache[pixelHash h.prev] = h.prev

/-- ENC between steps: it is never at FAULT (42_encoder.md R173); during and after a run the cache and `prev` are
as R24 and R25 say, the run counter is in 0..61 (R22) and no pixel was read that the host has not pushed (R58);
at DONE no pixel is pending (42_encoder.md R176). -/
structure Enc.Inv (e : Enc) : Prop where
  not_fault  : e.status ≠ .fault
  slots_hold : e.status = .run ∨ e.status = .done → e.toHistory.SlotsHold
  prev_held  : e.status = .run ∨ e.status = .done → e.toHistory.PrevHeld
  run_le     : e.status = .run ∨ e.status = .done → e.run ≤ 61
  ip_le      : e.status = .run ∨ e.status = .done → e.ip ≤ e.pin.length
  run_done   : e.status = .done → e.run = 0

/-- DEC between steps: `TIN` is in canonical form; `cause` is NONE exactly when `status` is not FAULT (10_state.md
R29); during and after a run the cache and `prev` are as R24 and R25 say and `op` counts the pixels written (R26);
during a run the indices are in their ranges (R26); no output stands at IDLE or FAULT (R35, 60_exceptions.md R261). -/
structure Dec.Inv (d : Dec) : Prop where
  tin_wf     : Memory.wf d.tin
  cause_iff  : d.status = .fault ↔ d.cause ≠ none
  slots_hold : d.status = .run ∨ d.status = .done → d.toHistory.SlotsHold
  prev_held  : d.status = .run ∨ d.status = .done → d.toHistory.PrevHeld
  op_counts  : d.status = .run ∨ d.status = .done → d.op = d.pout.length
  ip_le      : d.status = .run → d.ip ≤ d.tlen
  op_lt      : d.status = .run → d.op < d.npix
  no_output  : d.status = .idle ∨ d.status = .fault → d.pout = []

/-- The framing layer between steps: `cause` is NONE exactly when `status` is not FAULT (10_state.md R29); an operation
is in progress exactly at RUN; a decoded image stands only at DONE (10_state.md R33). -/
structure Framer.Inv (f : Framer) : Prop where
  cause_iff : f.status = .fault ↔ f.cause ≠ none
  phase_iff : f.status = .run ↔ f.phase ≠ .idle
  result_at : f.result ≠ none → f.status = .done

/-- The whole machine between steps. While `Encode` is in progress ENC is in or at the end of its run; while `Decode`
is, DEC is in or at the end of the run for the header's pixel count (44_file_framing.md R242, R244). -/
structure State.Inv (s : State) : Prop where
  enc : s.enc.Inv
  dec : s.dec.Inv
  frm : s.frm.Inv
  encoding : ∀ hb, s.frm.phase = .encoding hb → s.enc.status = .run ∨ s.enc.status = .done
  decoding : ∀ h, s.frm.phase = .decoding h → s.dec.status ≠ .idle ∧ s.dec.npix = h.pixelCount

/-! ## What a step has done -/

/-- DEC is about to take a token step: no input goes first, and a token step is enabled (43_decoder.md R200). -/
structure DecRunning (s : State) : Prop where
  no_input : s.inputs = []
  in_run   : s.dec.status = .run
  has_room : s.dec.op < s.dec.npix

/-- From `s` to `t`, DEC has executed one token that stands for `n` pixels `px` and is `len` bytes long
(43_decoder.md R209), and nothing else has changed. -/
structure TokenDone (px : Pixel) (n len : Nat) (s t : State) : Prop where
  prev        : t.dec.prev = px
  slot        : t.dec.cache[pixelHash px] = px
  other_slots : ∀ k : Fin 64, k ≠ pixelHash px → t.dec.cache[k] = s.dec.cache[k]
  pout        : t.dec.pout = s.dec.pout ++ List.replicate n px
  ip          : t.dec.ip = s.dec.ip + len
  op          : t.dec.op = s.dec.op + n
  status      : t.dec.status = if s.dec.op + n = s.dec.npix then .done else s.dec.status
  cause       : t.dec.cause = s.dec.cause
  npix        : t.dec.npix = s.dec.npix
  tlen        : t.dec.tlen = s.dec.tlen
  tin         : ∀ a, t.dec.tin.read a = s.dec.tin.read a
  enc         : t.enc = s.enc
  frm         : t.frm = s.frm
  inputs      : t.inputs = s.inputs

/-- From `s` to `t`, DEC has failed with cause `k` (60_exceptions.md R261): its output is discarded, its inputs and
configuration and the rest of the machine are as before. Nothing is said of `prev`, `cache`, `ip` and `op`, which are
unspecified after FAULT (43_decoder.md R213). -/
structure DecFailed (k : Cause) (s t : State) : Prop where
  status : t.dec.status = .fault
  cause  : t.dec.cause = some k
  pout   : t.dec.pout = []
  npix   : t.dec.npix = s.dec.npix
  tlen   : t.dec.tlen = s.dec.tlen
  tin    : ∀ a, t.dec.tin.read a = s.dec.tin.read a
  enc    : t.enc = s.enc
  frm    : t.frm = s.frm
  inputs : t.inputs = s.inputs

/-- The byte of the RUN token that a pending count owes, if any (42_encoder.md R163, R171). -/
def owedRun (e : Enc) : List Byte := if 0 < e.run then [u8 (0xC0 + ((e.run : Int) - 1))] else []

/-- From `e` to `e'`, ENC has taken the pixel step of a pixel `p` that differs from `prev`: the owed RUN byte, then the
token bytes `bytes`, then the update (42_encoder.md R163, R170). -/
structure EncEmitted (bytes : List Byte) (p : Pixel) (e e' : Enc) : Prop where
  tout        : e'.tout = e.tout ++ owedRun e ++ bytes
  run         : e'.run = 0
  prev        : e'.prev = p
  slot        : e'.cache[pixelHash p] = p
  other_slots : ∀ k : Fin 64, k ≠ pixelHash p → e'.cache[k] = e.cache[k]
  ip          : e'.ip = e.ip + 1
  pin         : e'.pin = e.pin
  status      : e'.status = e.status

/-- Pixels a token stands for (43_decoder.md R203 to R208). -/
def tokenPixels : Instr → Nat
  | .rgb _ _ _    => 1
  | .rgba _ _ _ _ => 1
  | .diff _ _ _   => 1
  | .luma _ _ _   => 1
  | .run n        => n
  | .index _      => 1

end Sys2Proof.Machine
end

