-- ==== Sys2Proof/Certificates/Slice0/Obligations.lean ====
section
/-! DEFINITION. The statements for the provers. They come from the spec's numbered rules; a docstring names the rules, and
says where a clause is the model's own choice. -/

open Sys2Proof Sys2Proof.Machine

/-! ## Encoding -/

/-- 30_encoding.md R81, R96: words written out from the formats, one or more for each token. That FE is RGB and FF is
RGBA is PRESUMED (log entry 1; the spec's R84 marks the assignment as general knowledge, U3). -/
def Obligations.SpecWordsDecodeToTheirTokens : Prop :=
  decode standardConfig [0xFE, 0xC8, 0x64, 0x32] = .ok (.rgb 200 100 50, []) ∧
  decode standardConfig [0xFF, 0x0A, 0x14, 0x1E, 0xFF] = .ok (.rgba 10 20 30 255, []) ∧
  decode standardConfig [0x77] = .ok (.diff 1 (-1) 1, []) ∧
  decode standardConfig [0xAA, 0x85] = .ok (.luma 10 0 (-3), []) ∧
  decode standardConfig [0xC1] = .ok (.run 2, []) ∧
  decode standardConfig [0xFD] = .ok (.run 62, []) ∧
  decode standardConfig [0x3F] = .ok (.index 63, [])

/-- 30_encoding.md R96 (the syntax is the spec's decision D17, the round trip its derived rule): for every well-formed
token, under either assignment of the exact tags, decoding its bytes gives it back and leaves what follows. -/
def Obligations.DecodeOfEncodeIsTheToken : Prop :=
  ∀ c : Config, c.Legal → ∀ i : Instr, i.wf = true → ∀ rest : List Byte,
    decode c (encode c i ++ rest) = .ok (i, rest)

/-- 30_encoding.md R93, R96: whatever bytes decode to a token are exactly that token's bytes, and the token is
well-formed; so no two tokens share bytes and no operand bit is dropped. -/
def Obligations.EncodeOfDecodeIsTheBytes : Prop :=
  ∀ c : Config, c.Legal → ∀ (bs rest : List Byte) (i : Instr), decode c bs = .ok (i, rest) →
    i.wf = true ∧ encode c i ++ rest = bs

/-- 30_encoding.md R85 (derived by the spec), R93: every first byte, followed by enough bytes, begins exactly one
token, by the first-byte map. -/
def Obligations.FirstByteMap : Prop :=
  ∀ c : Config, c.Legal → ∀ (b0 : Byte) (rest : List Byte), 4 ≤ rest.length →
    ∃ i, decode c (b0 :: rest) = .ok (i, rest.drop (tokenLength i.tokenClass - 1)) ∧
      (i.tokenClass = .index ↔ b0.toNat < 0x40) ∧
      (i.tokenClass = .diff ↔ 0x40 ≤ b0.toNat ∧ b0.toNat < 0x80) ∧
      (i.tokenClass = .luma ↔ 0x80 ≤ b0.toNat ∧ b0.toNat < 0xC0) ∧
      (i.tokenClass = .run ↔ 0xC0 ≤ b0.toNat ∧ b0.toNat < 0xFE) ∧
      (i.tokenClass = .rgb ↔ b0 = c.tagRgb) ∧
      (i.tokenClass = .rgba ↔ b0 = c.tagRgba)

/-- 30_encoding.md R86: the bytes each token consumes, known from its first byte alone. -/
def Obligations.TokenLengths : Prop :=
  ∀ (c : Config) (b0 : Byte) (rest rest' : List Byte) (i : Instr), decode c (b0 :: rest) = .ok (i, rest') →
    (b0 :: rest).length = rest'.length +
      (match i with
        | .index _ => 1 | .diff _ _ _ => 1 | .run _ => 1 | .luma _ _ _ => 2 | .rgb _ _ _ => 4 | .rgba _ _ _ _ => 5) ∧
    ∀ (rest₂ rest₂' : List Byte) (i₂ : Instr), decode c (b0 :: rest₂) = .ok (i₂, rest₂') →
      (b0 :: rest₂).length - rest₂'.length = (b0 :: rest).length - rest'.length

/-- 30_encoding.md R88, R89, R90: the biased fields of DIFF, LUMA and RUN, at every value. -/
def Obligations.BiasedFields : Prop :=
  ∀ c : Config, c.Legal → ∀ rest : List Byte,
    (∀ fr fg fb : Nat, fr < 4 → fg < 4 → fb < 4 →
      decode c (u8 (0x40 + 16 * fr + 4 * fg + fb) :: rest) = .ok (.diff (fr - 2) (fg - 2) (fb - 2), rest)) ∧
    (∀ fgl frg fbg : Nat, fgl < 64 → frg < 16 → fbg < 16 →
      decode c (u8 (0x80 + fgl) :: u8 (16 * frg + fbg) :: rest) = .ok (.luma (fgl - 32) (frg - 8) (fbg - 8), rest)) ∧
    (∀ fc : Nat, fc < 62 → decode c (u8 (0xC0 + fc) :: rest) = .ok (.run (fc + 1), rest))

/-! ## Pure functions -/

/-- 40_hash_and_shared_update.md R120: the hash, on unsigned bytes, with one reduction after the sum. -/
def Obligations.HashFormula : Prop :=
  (∀ p : Pixel, (pixelHash p).val = (3 * p.r.toNat + 5 * p.g.toNat + 7 * p.b.toNat + 11 * p.a.toNat) % 64) ∧
  pixelHash ⟨10, 20, 30, 255⟩ = 9

/-- 40_hash_and_shared_update.md R121 (derived by the spec): 6-bit wrap-around arithmetic gives the same hash. -/
def Obligations.HashInSixBitArithmetic : Prop :=
  ∀ p : Pixel, (pixelHash p).val =
    (3 * p.r.setWidth 6 + 5 * p.g.setWidth 6 + 7 * p.b.setWidth 6 + 11 * p.a.setWidth 6).toNat

/-- 40_hash_and_shared_update.md R123, R124 (the last clause derived by the spec): a delta is the signed reading of
the difference modulo 256; applying a delta is addition modulo 256; applying the delta of two bytes to the old one
gives the new one. -/
def Obligations.ChannelDeltas : Prop :=
  (∀ new old : Byte, -128 ≤ delta new old ∧ delta new old ≤ 127 ∧
    (delta new old - ((new.toNat : Int) - old.toNat)) % 256 = 0) ∧
  (∀ (old : Byte) (d : Int), ((applyDelta old d).toNat : Int) = (old.toNat + d) % 256) ∧
  (∀ new old : Byte, applyDelta old (delta new old) = new)

/-- 40_hash_and_shared_update.md R125 (derived by the spec; D22): where the green delta is in LUMA's range, wrapping
the second differences to eight bits or not makes no difference to the range test. -/
def Obligations.LumaSecondDifferencesMayWrap : Prop :=
  ∀ r g r' g' : Byte, -32 ≤ delta g g' → delta g g' ≤ 31 →
    let d := delta r r' - delta g g'
    ((-8 ≤ s8 d ∧ s8 d ≤ 7) ↔ (-8 ≤ d ∧ d ≤ 7)) ∧ (-8 ≤ d → d ≤ 7 → s8 d = d)

/-- 40_hash_and_shared_update.md R128: `Update` writes the slot of the pixel's hash and `prev`, and nothing else. -/
def Obligations.UpdateWritesOneSlotAndPrev : Prop :=
  ∀ (h : History) (px : Pixel),
    (h.update px).prev = px ∧ (h.update px).cache[pixelHash px] = px ∧
    ∀ k : Fin 64, k ≠ pixelHash px → (h.update px).cache[k] = h.cache[k]

/-- 20_memory.md R52: BE32 of a 32-bit number is its four bytes, most significant first; unBE32 of four bytes is the
number they stand for; unBE32 undoes BE32. (That the header is made of and read by these two is EncodeHeaderLayout and
HeaderRoundTrip.) -/
def Obligations.HeaderIntegersAreBigEndian : Prop :=
  (∀ v : BitVec 32, ∃ c0 c1 c2 c3 : Byte, be32 v = [c0, c1, c2, c3] ∧
    c0 = v.extractLsb' 24 8 ∧ c1 = v.extractLsb' 16 8 ∧ c2 = v.extractLsb' 8 8 ∧ c3 = v.extractLsb' 0 8 ∧
    unBe32 c0 c1 c2 c3 = v) ∧
  (∀ c0 c1 c2 c3 : Byte, (unBe32 c0 c1 c2 c3).toNat =
    c0.toNat * 2 ^ 24 + c1.toNat * 2 ^ 16 + c2.toNat * 2 ^ 8 + c3.toNat)

/-! ## The six tokens in DEC -/

/-- 43_decoder.md R203: RGB completes with the three operand bytes and the previous alpha, from the bytes too; with
fewer than three operand bytes it fails. (What a failure leaves is the spec's decisions D4, D6; log entry 13.) -/
def Obligations.RgbKeepsThePreviousAlpha : Prop :=
  (∀ (r g b : Byte) (s : State), s.dec.op + 1 ≤ s.dec.npix →
    ∃ t, exec (.rgb r g b) s = .next t ∧ TokenDone ⟨r, g, b, s.dec.prev.a⟩ 1 4 s t) ∧
  (∀ s : State, DecRunning s → s.dec.tin.read s.dec.ip = standardConfig.tagRgb → s.dec.ip + 4 ≤ s.dec.tlen →
    ∃ t, step s = .next t ∧
      TokenDone ⟨s.dec.tin.read (s.dec.ip + 1), s.dec.tin.read (s.dec.ip + 2), s.dec.tin.read (s.dec.ip + 3),
        s.dec.prev.a⟩ 1 4 s t) ∧
  (∀ s : State, DecRunning s → s.dec.tin.read s.dec.ip = standardConfig.tagRgb → s.dec.ip < s.dec.tlen →
    s.dec.tlen < s.dec.ip + 4 → ∃ t, step s = .next t ∧ DecFailed .truncated s t)

/-- 43_decoder.md R204: RGBA completes with its four operand bytes, from the bytes too; with fewer it fails. (What a
failure leaves is the spec's decisions D4, D6; log entry 13.) -/
def Obligations.RgbaTakesAllFourChannels : Prop :=
  (∀ (r g b a : Byte) (s : State), s.dec.op + 1 ≤ s.dec.npix →
    ∃ t, exec (.rgba r g b a) s = .next t ∧ TokenDone ⟨r, g, b, a⟩ 1 5 s t) ∧
  (∀ s : State, DecRunning s → s.dec.tin.read s.dec.ip = standardConfig.tagRgba → s.dec.ip + 5 ≤ s.dec.tlen →
    ∃ t, step s = .next t ∧
      TokenDone ⟨s.dec.tin.read (s.dec.ip + 1), s.dec.tin.read (s.dec.ip + 2), s.dec.tin.read (s.dec.ip + 3),
        s.dec.tin.read (s.dec.ip + 4)⟩ 1 5 s t) ∧
  (∀ s : State, DecRunning s → s.dec.tin.read s.dec.ip = standardConfig.tagRgba → s.dec.ip < s.dec.tlen →
    s.dec.tlen < s.dec.ip + 5 → ∃ t, step s = .next t ∧ DecFailed .truncated s t)

/-- 43_decoder.md R205: DIFF applies its three biased fields to the previous pixel, channel by channel modulo 256. -/
def Obligations.DiffAppliesThreeDeltas : Prop :=
  (∀ (dr dg db : Int) (s : State), s.dec.op + 1 ≤ s.dec.npix →
    ∃ t, exec (.diff dr dg db) s = .next t ∧
      TokenDone ⟨applyDelta s.dec.prev.r dr, applyDelta s.dec.prev.g dg, applyDelta s.dec.prev.b db,
        s.dec.prev.a⟩ 1 1 s t) ∧
  (∀ (s : State) (b0 : Byte), DecRunning s → s.dec.ip < s.dec.tlen → s.dec.tin.read s.dec.ip = b0 →
    field b0 7 6 = 0b01 →
    ∃ t, step s = .next t ∧
      TokenDone ⟨applyDelta s.dec.prev.r (field b0 5 4 - 2), applyDelta s.dec.prev.g (field b0 3 2 - 2),
        applyDelta s.dec.prev.b (field b0 1 0 - 2), s.dec.prev.a⟩ 1 1 s t)

/-- 43_decoder.md R206: LUMA applies dg, dg + dr_dg, dg + db_dg; without its second byte it fails. (What a failure
leaves is the spec's decisions D4, D6; log entry 13.) -/
def Obligations.LumaAppliesDeltasRelativeToGreen : Prop :=
  (∀ (dg drdg dbdg : Int) (s : State), s.dec.op + 1 ≤ s.dec.npix →
    ∃ t, exec (.luma dg drdg dbdg) s = .next t ∧
      TokenDone ⟨applyDelta s.dec.prev.r (dg + drdg), applyDelta s.dec.prev.g dg,
        applyDelta s.dec.prev.b (dg + dbdg), s.dec.prev.a⟩ 1 2 s t) ∧
  (∀ (s : State) (b0 b1 : Byte), DecRunning s → s.dec.ip + 2 ≤ s.dec.tlen → s.dec.tin.read s.dec.ip = b0 →
    s.dec.tin.read (s.dec.ip + 1) = b1 → field b0 7 6 = 0b10 →
    let dg : Int := field b0 5 0 - 32
    ∃ t, step s = .next t ∧
      TokenDone ⟨applyDelta s.dec.prev.r (dg + (field b1 7 4 - 8)), applyDelta s.dec.prev.g dg,
        applyDelta s.dec.prev.b (dg + (field b1 3 0 - 8)), s.dec.prev.a⟩ 1 2 s t) ∧
  (∀ s : State, DecRunning s → field (s.dec.tin.read s.dec.ip) 7 6 = 0b10 → s.dec.ip + 1 = s.dec.tlen →
    ∃ t, step s = .next t ∧ DecFailed .truncated s t)

/-- 43_decoder.md R207: RUN writes the previous pixel into its count of slots, or fails without writing where they are
not there; the cache does not change where `prev` is in its slot (10_state.md R25, derived by the spec). (What a
failure leaves is the spec's decisions D4, D6; log entry 13.) -/
def Obligations.RunRepeatsThePreviousPixel : Prop :=
  (∀ (n : Nat) (s : State), s.dec.op + n ≤ s.dec.npix →
    ∃ t, exec (.run n) s = .next t ∧ TokenDone s.dec.prev n 1 s t ∧
      (s.dec.PrevHeld → t.dec.cache = s.dec.cache)) ∧
  (∀ (n : Nat) (s : State), s.dec.npix < s.dec.op + n →
    ∃ t, exec (.run n) s = .next t ∧ DecFailed .runOverrun s t) ∧
  (∀ (s : State) (b0 : Byte), DecRunning s → s.dec.ip < s.dec.tlen → s.dec.tin.read s.dec.ip = b0 →
    field b0 7 6 = 0b11 → b0 ≠ 0xFE → b0 ≠ 0xFF →
    let n := field b0 5 0 + 1
    1 ≤ n ∧ n ≤ 62 ∧
    ∃ t, step s = .next t ∧
      (s.dec.op + n ≤ s.dec.npix → TokenDone s.dec.prev n 1 s t) ∧
      (s.dec.npix < s.dec.op + n → DecFailed .runOverrun s t))

/-- 43_decoder.md R208: INDEX copies its cache slot verbatim, alpha too, for every slot number. -/
def Obligations.IndexCopiesItsSlot : Prop :=
  (∀ (k : Fin 64) (s : State), s.dec.op + 1 ≤ s.dec.npix →
    ∃ t, exec (.index k) s = .next t ∧ TokenDone s.dec.cache[k] 1 1 s t) ∧
  (∀ (s : State) (k : Fin 64), DecRunning s → s.dec.ip < s.dec.tlen → (s.dec.tin.read s.dec.ip).toNat = k.val →
    ∃ t, step s = .next t ∧ TokenDone s.dec.cache[k] 1 1 s t)

/-- 40_hash_and_shared_update.md R130 (derived by the spec): INDEX of a slot that holds CACHE_INIT clears slot 0 (the
update is not skipped). -/
def Obligations.IndexOfAnUnwrittenSlotClearsSlotZero : Prop :=
  ∀ (k : Fin 64) (s : State), s.dec.cache[k] = ⟨0, 0, 0, 0⟩ → s.dec.op + 1 ≤ s.dec.npix →
    ∃ t, exec (.index k) s = .next t ∧ t.dec.prev = ⟨0, 0, 0, 0⟩ ∧ t.dec.cache[(0 : Fin 64)] = ⟨0, 0, 0, 0⟩

/-- 10_state.md R32, 20_memory.md R63 (derived by the spec): whatever a token does, failing included, ENC, the framing
layer, the pending inputs, NPIX, TLEN and every byte of TIN are unchanged; and every token answers a next state. -/
def Obligations.TokensTouchOnlyTheirRun : Prop :=
  ∀ (i : Instr) (s : State), ∃ t, exec i s = .next t ∧
    t.enc = s.enc ∧ t.frm = s.frm ∧ t.inputs = s.inputs ∧ t.dec.npix = s.dec.npix ∧ t.dec.tlen = s.dec.tlen ∧
    ∀ a, t.dec.tin.read a = s.dec.tin.read a

/-- 43_decoder.md R201: a token whose pixels do not fit fails with RUN_OVERRUN and writes none of them. Where a token
step is enabled only RUN can fail so (60_exceptions.md R262, R264); the other five fit there, and for them the
statement speaks of `exec` run outside an enabled step (log entry 15). (What a failure leaves is the spec's decisions
D4, D6; log entry 13.) -/
def Obligations.TokensThatDoNotFitFail : Prop :=
  ∀ (i : Instr) (s : State), s.dec.npix < s.dec.op + tokenPixels i →
    ∃ t, exec i s = .next t ∧ DecFailed .runOverrun s t

/-! ## Failures -/

/-- 60_exceptions.md R261, 10_state.md R29 (the spec's decision D6; the framing layer's status is log entry 9): what
`raise` writes, in DEC and in the framing layer, and what it leaves. -/
def Obligations.RaiseEndsTheRun : Prop :=
  ∀ (k : Cause) (s : State),
    DecFailed k s (raise .dec k s) ∧
    (raise .frm k s).frm.status = .fault ∧ (raise .frm k s).frm.cause = some k ∧
    (raise .frm k s).frm.result = none ∧ (raise .frm k s).frm.hdr = s.frm.hdr ∧
    (raise .frm k s).enc = s.enc ∧ (raise .frm k s).dec = s.dec ∧ (raise .frm k s).inputs = s.inputs

/-- 60_exceptions.md R262 (the numbers are the spec's decision D6): what the cause registers read as. -/
def Obligations.CauseRegisterValues : Prop :=
  causeWord none = 0 ∧
  causeWord (some .badGeometry) = 257 ∧ causeWord (some .badChannels) = 258 ∧
  causeWord (some .badColorspace) = 259 ∧ causeWord (some .noEndMarker) = 513 ∧
  causeWord (some .hdrLength) = 514 ∧ causeWord (some .badMagic) = 515 ∧
  causeWord (some .hdrChannels) = 516 ∧ causeWord (some .hdrColorspace) = 517 ∧
  causeWord (some .hdrZeroSize) = 518 ∧ causeWord (some .truncated) = 519 ∧
  causeWord (some .runOverrun) = 520

/-! ## The step -/

/-- 43_decoder.md R201: the step runs the token that the bytes at `dec.ip` decode to; so does DEC's turn among the
inputs (log entry 5). -/
def Obligations.StepRunsTheDecodedToken : Prop :=
  ∀ (s : State) (i : Instr) (rest : List Byte), DecRunning s →
    decode standardConfig (memRead s.dec.tin s.dec.ip (s.dec.tlen - s.dec.ip)) = .ok (i, rest) →
    step s = exec i s ∧
    ∀ more : List Input, step (s.setInputs (.decTurn :: more)) = exec i (s.setInputs more)

/-- 43_decoder.md R201: where the bytes from `dec.ip` to the end of the stream are no whole token, the step fails with
TRUNCATED. -/
def Obligations.StepFailsWhereTheStreamEnds : Prop :=
  ∀ (s : State) (e : DecodeError), DecRunning s →
    decode standardConfig (memRead s.dec.tin s.dec.ip (s.dec.tlen - s.dec.ip)) = .error e →
    ∃ t, step s = .next t ∧ DecFailed .truncated s t

/-- 43_decoder.md R200, R210 (the spec's decisions D3, D7, D10): where no token step is enabled the machine's own step
leaves all of DEC as it is, the output included; and DEC's turn among the inputs (log entry 5) changes nothing but the
inputs. -/
def Obligations.NoTokenStepAfterTheEnd : Prop :=
  (∀ s t : State, s.inputs = [] → s.dec.status ≠ .run ∨ s.dec.npix ≤ s.dec.op → step s = .next t → t.dec = s.dec) ∧
  (∀ (s : State) (more : List Input), s.inputs = .decTurn :: more →
    s.dec.status ≠ .run ∨ s.dec.npix ≤ s.dec.op → step s = .next (s.setInputs more))

/-- 70_reset_and_hazards.md R300, 43_decoder.md R200 (the spec's decision D12): `start` of DEC. (That it is refused
while `Decode` holds DEC is log entry 10.) -/
def Obligations.DecStartSetsTheResetValues : Prop :=
  ∀ (s : State) (more : List Input), s.inputs = .cmd .decStart :: more → s.dec.status ≠ .run →
    (∀ h, s.frm.phase ≠ .decoding h) →
    ∃ t, step s = .next t ∧
      t.dec.prev = ⟨0, 0, 0, 0⟩ ∧ (∀ k : Fin 64, t.dec.cache[k] = ⟨0, 0, 0, 0⟩) ∧
      t.dec.ip = 0 ∧ t.dec.op = 0 ∧ t.dec.pout = [] ∧ t.dec.cause = none ∧
      t.dec.status = (if s.dec.npix = 0 then .done else .run) ∧
      t.dec.npix = s.dec.npix ∧ t.dec.tlen = s.dec.tlen ∧ (∀ a, t.dec.tin.read a = s.dec.tin.read a) ∧
      t.enc = s.enc ∧ t.frm = s.frm ∧ t.inputs = more

/-- 70_reset_and_hazards.md R300 (the spec's decision D12): `start` of ENC. (That it is refused while `Encode` holds
ENC is log entry 10, and that `PIN` begins anew is log entry 8.) -/
def Obligations.EncStartSetsTheResetValues : Prop :=
  ∀ (s : State) (more : List Input), s.inputs = .cmd .encStart :: more → s.enc.status ≠ .run →
    (∀ hb, s.frm.phase ≠ .encoding hb) →
    ∃ t, step s = .next t ∧
      t.enc.prev = ⟨0, 0, 0, 0⟩ ∧ (∀ k : Fin 64, t.enc.cache[k] = ⟨0, 0, 0, 0⟩) ∧
      t.enc.run = 0 ∧ t.enc.ip = 0 ∧ t.enc.tout = [] ∧ t.enc.pin = [] ∧ t.enc.status = .run ∧
      t.dec = s.dec ∧ t.frm = s.frm ∧ t.inputs = more

/-- 70_reset_and_hazards.md R304 (the spec's decision D10): a push or `finish` outside a run, and a `start` during
one, have no effect. The rest is the model's choice: a write to what a run reads has none during the run (log entry
11), nor has `Encode` or `Decode` while the framing layer or the unit is in RUN, nor any command to a unit, or write
of DEC's inputs, while the framing layer holds the unit for `Encode` or `Decode` (log entry 10). -/
def Obligations.CommandsOutOfOrderHaveNoEffect : Prop :=
  ∀ (s : State) (x : HostCmd) (more : List Input), s.inputs = .cmd x :: more →
    (match x with
      | .encStart      => s.enc.status = .run ∨ ∃ hb, s.frm.phase = .encoding hb
      | .encPush _     => s.enc.status ≠ .run ∨ ∃ hb, s.frm.phase = .encoding hb
      | .encFinish     => s.enc.status ≠ .run ∨ ∃ hb, s.frm.phase = .encoding hb
      | .decStart      => s.dec.status = .run ∨ ∃ h, s.frm.phase = .decoding h
      | .writeNpix _   => s.dec.status = .run ∨ ∃ h, s.frm.phase = .decoding h
      | .writeTlen _   => s.dec.status = .run ∨ ∃ h, s.frm.phase = .decoding h
      | .writeTin _ _  => s.dec.status = .run ∨ ∃ h, s.frm.phase = .decoding h
      | .writeHdr _    => s.frm.status = .run
      | .encode _      => s.frm.status = .run ∨ s.enc.status = .run
      | .decode _      => s.frm.status = .run ∨ s.dec.status = .run) →
    step s = .next (s.setInputs more)

/-- 10_state.md R30, 70_reset_and_hazards.md R302 (the spec's decisions D5, D10; that writes are commands is log entry
5): outside a run the host's writes take effect, and change nothing else; an illegal header field is kept as written.
-/
def Obligations.HostWritesTakeEffect : Prop :=
  (∀ (s : State) (n : Nat) (more : List Input), s.inputs = .cmd (.writeNpix n) :: more → s.dec.status ≠ .run →
    (∀ h, s.frm.phase ≠ .decoding h) →
    step s = .next { s with inputs := more, dec := { s.dec with npix := n } }) ∧
  (∀ (s : State) (n : Nat) (more : List Input), s.inputs = .cmd (.writeTlen n) :: more → s.dec.status ≠ .run →
    (∀ h, s.frm.phase ≠ .decoding h) →
    step s = .next { s with inputs := more, dec := { s.dec with tlen := n } }) ∧
  (∀ (s : State) (a : Nat) (bs : List Byte) (more : List Input), s.inputs = .cmd (.writeTin a bs) :: more →
    s.dec.status ≠ .run → (∀ h, s.frm.phase ≠ .decoding h) → s.dec.tin.wf →
    ∃ m : Memory, step s = .next { s with inputs := more, dec := { s.dec with tin := m } } ∧ m.wf ∧
      ∀ x, m.read x = if a ≤ x ∧ x < a + bs.length then bs.getD (x - a) 0 else s.dec.tin.read x) ∧
  (∀ (s : State) (h : Header) (more : List Input), s.inputs = .cmd (.writeHdr h) :: more → s.frm.status ≠ .run →
    step s = .next { s with inputs := more, frm := { s.frm with hdr := h } })

/-- 42_encoder.md R160 (the spec's decisions D3, D10; `PIN` is log entry 8): a push in a run takes one pixel step of
ENC and touches nothing else. -/
def Obligations.PushTakesOnePixelStep : Prop :=
  ∀ (s : State) (p : Pixel) (more : List Input), s.inputs = .cmd (.encPush p) :: more → s.enc.status = .run →
    (∀ hb, s.frm.phase ≠ .encoding hb) →
    step s = .next { s with
      inputs := more, enc := encPixel standardConfig p { s.enc with pin := s.enc.pin ++ [p] } }

/-! ## The encoder -/

/-- 42_encoder.md R162: a pixel equal to `prev` is only counted; the 62nd makes a RUN byte 0xFD and clears the count.
-/
def Obligations.EncCountsARepeatedPixel : Prop :=
  ∀ (c : Config) (e : Enc),
    (e.run + 1 ≠ 62 → encPixel c e.prev e = { e with run := e.run + 1, ip := e.ip + 1 }) ∧
    (e.run + 1 = 62 → encPixel c e.prev e = { e with run := 0, ip := e.ip + 1, tout := e.tout ++ [0xFD] })

/-- 42_encoder.md R164 (with R163, R170): INDEX where the slot of the pixel's hash already holds it. -/
def Obligations.EncEmitsIndex : Prop :=
  ∀ (c : Config) (p : Pixel) (e : Enc), p ≠ e.prev → e.cache[pixelHash p] = p →
    EncEmitted [u8 ((pixelHash p).val : Int)] p e (encPixel c p e)

/-- 42_encoder.md R166 (with R163, R165, R170): DIFF. -/
def Obligations.EncEmitsDiff : Prop :=
  ∀ (c : Config) (p : Pixel) (e : Enc), p ≠ e.prev → e.cache[pixelHash p] ≠ p → p.a = e.prev.a →
    ∀ dr dg db : Int, dr = delta p.r e.prev.r → dg = delta p.g e.prev.g → db = delta p.b e.prev.b →
      -2 ≤ dr ∧ dr ≤ 1 ∧ -2 ≤ dg ∧ dg ≤ 1 ∧ -2 ≤ db ∧ db ≤ 1 →
      EncEmitted [u8 (0x40 + 16 * (dr + 2) + 4 * (dg + 2) + (db + 2))] p e (encPixel c p e)

/-- 42_encoder.md R167 (with R163, R165, R170): LUMA, where DIFF's test fails. -/
def Obligations.EncEmitsLuma : Prop :=
  ∀ (c : Config) (p : Pixel) (e : Enc), p ≠ e.prev → e.cache[pixelHash p] ≠ p → p.a = e.prev.a →
    ∀ dr dg db : Int, dr = delta p.r e.prev.r → dg = delta p.g e.prev.g → db = delta p.b e.prev.b →
      ¬(-2 ≤ dr ∧ dr ≤ 1 ∧ -2 ≤ dg ∧ dg ≤ 1 ∧ -2 ≤ db ∧ db ≤ 1) →
      -32 ≤ dg ∧ dg ≤ 31 ∧ -8 ≤ dr - dg ∧ dr - dg ≤ 7 ∧ -8 ≤ db - dg ∧ db - dg ≤ 7 →
      EncEmitted [u8 (0x80 + (dg + 32)), u8 (16 * (dr - dg + 8) + (db - dg + 8))] p e (encPixel c p e)

/-- 42_encoder.md R168 (with R163, R165, R170): RGB, where alpha is unchanged and neither range test holds. -/
def Obligations.EncEmitsRgb : Prop :=
  ∀ (c : Config) (p : Pixel) (e : Enc), p ≠ e.prev → e.cache[pixelHash p] ≠ p → p.a = e.prev.a →
    ∀ dr dg db : Int, dr = delta p.r e.prev.r → dg = delta p.g e.prev.g → db = delta p.b e.prev.b →
      ¬(-2 ≤ dr ∧ dr ≤ 1 ∧ -2 ≤ dg ∧ dg ≤ 1 ∧ -2 ≤ db ∧ db ≤ 1) →
      ¬(-32 ≤ dg ∧ dg ≤ 31 ∧ -8 ≤ dr - dg ∧ dr - dg ≤ 7 ∧ -8 ≤ db - dg ∧ db - dg ≤ 7) →
      EncEmitted [c.tagRgb, p.r, p.g, p.b] p e (encPixel c p e)

/-- 42_encoder.md R169 (with R163, R165, R170): RGBA, where alpha differs, whatever the other channels do. -/
def Obligations.EncEmitsRgba : Prop :=
  ∀ (c : Config) (p : Pixel) (e : Enc), p ≠ e.prev → e.cache[pixelHash p] ≠ p → p.a ≠ e.prev.a →
    EncEmitted [c.tagRgba, p.r, p.g, p.b, p.a] p e (encPixel c p e)

/-- 42_encoder.md R171: `finish` emits the owed RUN byte, clears the count and ends the run, whose result is then
TOUT; nothing else changes. That the host gives it as a command is R160 and the spec's decision D10, and that commands
come through the inputs is log entry 5. -/
def Obligations.FinishFlushesTheRun : Prop :=
  (∀ (c : Config) (e : Enc),
    encFinish c e = { e with tout := e.tout ++ owedRun e, run := 0, status := .done } ∧
    encResult (encFinish c e) = some (e.tout ++ owedRun e)) ∧
  (∀ (s : State) (more : List Input), s.inputs = .cmd .encFinish :: more → s.enc.status = .run →
    (∀ hb, s.frm.phase ≠ .encoding hb) →
    step s = .next { s with inputs := more, enc := encFinish standardConfig s.enc })

/-- 45_laws.md R335 (derived by the spec): from every state of ENC with no pixel pending, m pixels equal to the pixel
before them make floor(m/62) bytes 0xFD and one byte for the rest, whether `finish` follows them or a pixel that
differs, whose own token, no RUN, comes after; so do m pixels equal to PREV_INIT at the start. -/
def Obligations.RepeatedPixelsMakeRunTokens : Prop :=
  ∀ (c : Config) (m : Nat),
    let runBytes : List Byte :=
      List.replicate (m / 62) 0xFD ++ (if m % 62 = 0 then [] else [u8 (0xC0 + ((m % 62 : Nat) : Int) - 1)])
    (∀ e : Enc, e.run = 0 →
      (encFinish c (encPixels c (List.replicate m e.prev) e)).tout = e.tout ++ runBytes ∧
      ∀ p : Pixel, p ≠ e.prev → ∃ i : Instr, i.tokenClass ≠ .run ∧
        (encPixel c p (encPixels c (List.replicate m e.prev) e)).tout = e.tout ++ runBytes ++ encode c i) ∧
    encodeTokens c (List.replicate m prevInit) = runBytes

/-- 45_laws.md R338 (derived by the spec): the size of the token stream. -/
def Obligations.EncodedSizeBounds : Prop :=
  ∀ (c : Config) (pixels : List Pixel),
    (pixels.length + 61) / 62 ≤ (encodeTokens c pixels).length ∧
    (encodeTokens c pixels).length ≤ 5 * pixels.length

/-- 42_encoder.md R173: no step takes ENC to FAULT. -/
def Obligations.EncNeverFails : Prop :=
  ∀ s t : State, s.enc.status ≠ .fault → step s = .next t → t.enc.status ≠ .fault

/-! ## Header and framing -/

/-- 41_header_codec.md R141, R142 (the order is the spec's decision D9): the fourteen bytes, or the cause, channels
tested first. -/
def Obligations.EncodeHeaderLayout : Prop :=
  ∀ (c : Config) (w h : BitVec 32) (ch cs : Byte),
    ((ch = 3 ∨ ch = 4) → (cs = 0 ∨ cs = 1) →
      encodeHeader c ⟨w, h, ch, cs⟩ = .ok (c.magic ++ be32 w ++ be32 h ++ [ch, cs])) ∧
    ((ch = 3 ∨ ch = 4) → ¬(cs = 0 ∨ cs = 1) → encodeHeader c ⟨w, h, ch, cs⟩ = .error .badColorspace) ∧
    (¬(ch = 3 ∨ ch = 4) → encodeHeader c ⟨w, h, ch, cs⟩ = .error .badChannels)

/-- 41_header_codec.md R146 (derived by the spec; the size test is its decision D8): for every MAGIC of four bytes,
`DecodeHeader` accepts exactly the byte sequences that `EncodeHeader` makes of legal headers of non-zero size, and
returns that header. -/
def Obligations.HeaderRoundTrip : Prop :=
  ∀ c : Config, c.magic.length = 4 → ∀ (hd : Header) (bytes : List Byte),
    decodeHeader c bytes = .ok hd ↔ encodeHeader c hd = .ok bytes ∧ 0 < hd.width.toNat * hd.height.toNat

/-- 41_header_codec.md R144, R145 (the spec's decisions D8, D9): the first failing test of `DecodeHeader` gives the
cause. -/
def Obligations.DecodeHeaderFailsInOrder : Prop :=
  ∀ (c : Config) (m0 m1 m2 m3 w0 w1 w2 w3 h0 h1 h2 h3 ch cs : Byte),
    let bytes := [m0, m1, m2, m3, w0, w1, w2, w3, h0, h1, h2, h3, ch, cs]
    (∀ short : List Byte, short.length ≠ 14 → decodeHeader c short = .error .hdrLength) ∧
    (c.magic ≠ [m0, m1, m2, m3] → decodeHeader c bytes = .error .badMagic) ∧
    (c.magic = [m0, m1, m2, m3] →
      (¬(ch = 3 ∨ ch = 4) → decodeHeader c bytes = .error .hdrChannels) ∧
      ((ch = 3 ∨ ch = 4) →
        (¬(cs = 0 ∨ cs = 1) → decodeHeader c bytes = .error .hdrColorspace) ∧
        ((cs = 0 ∨ cs = 1) → ([w0, w1, w2, w3] = [0, 0, 0, 0] ∨ [h0, h1, h2, h3] = [0, 0, 0, 0]) →
          decodeHeader c bytes = .error .hdrZeroSize)))

/-- 44_file_framing.md R242, R243 (the spec's decisions D8, D9, D15): `Encode` tests geometry, then the header fields.
-/
def Obligations.EncodeFailsInOrder : Prop :=
  ∀ (c : Config) (img : Image),
    (img.hdr.width.toNat * img.hdr.height.toNat = 0 ∨
        img.pixels.length ≠ img.hdr.width.toNat * img.hdr.height.toNat →
      encodeFile c img = .error .badGeometry) ∧
    (img.pixels.length = img.hdr.width.toNat * img.hdr.height.toNat → img.pixels ≠ [] →
      ∀ k, encodeHeader c img.hdr = .error k → encodeFile c img = .error k)

/-- 44_file_framing.md R244, R245 (the spec's decision D19): `Decode` reports a missing end marker exactly for the
files that do not end with it. -/
def Obligations.DecodeRequiresTheEndMarker : Prop :=
  ∀ (c : Config) (file : List Byte),
    decodeFile c file = some (.error .noEndMarker) ↔ ¬∃ body, file = body ++ c.eofMarker

/-- 45_laws.md R337 (derived by the spec): `Encode` after `Decode` need not give the file back. -/
def Obligations.EncodeOfDecodeMayDiffer : Prop :=
  ∃ (file : List Byte) (img : Image),
    decodeFile standardConfig file = some (.ok img) ∧ encodeFile standardConfig img ≠ .ok file

/-- 43_decoder.md R210: bytes after the output is full are ignored (the spec's decision D7). -/
def Obligations.UnreadBytesAreIgnored : Prop :=
  ∀ (c : Config) (t extra : List Byte) (n : Nat) (pixels : List Pixel),
    decodeTokens c t n = some (.ok pixels) → decodeTokens c (t ++ extra) n = some (.ok pixels)

/-! ## Whole runs -/

/-- 43_decoder.md R211 (derived by the spec), R212: for every stream and every size, from every state, a DEC run ends
within NPIX token steps: in DONE with exactly that many pixels, or in FAULT. -/
def Obligations.EveryDecodeRunEnds : Prop :=
  ∀ (c : Config) (t : List Byte) (n : Nat) (s : State),
    let d := (decodeRunFrom c t n s).dec
    (d.status = .done ∧ d.pout.length = n) ∨
    (d.status = .fault ∧ d.pout = [] ∧ (d.cause = some .truncated ∨ d.cause = some .runOverrun))

/-- 70_reset_and_hazards.md R300 (the spec's decision D12): nothing of an earlier run survives `start`: the result of
a run does not depend on the state it was started in. -/
def Obligations.NothingSurvivesStart : Prop :=
  (∀ (c : Config) (t : List Byte) (n : Nat) (s₁ s₂ : State),
    decResult (decodeRunFrom c t n s₁).dec = decResult (decodeRunFrom c t n s₂).dec) ∧
  (∀ (c : Config) (pixels : List Pixel) (e₁ e₂ : Enc),
    encResult (encFinish c (encPixels c pixels (encStart e₁))) =
      encResult (encFinish c (encPixels c pixels (encStart e₂))))

/-- 45_laws.md R330, R331, 43_decoder.md R213 (derived by the spec; D13): DEC, started in any state on what ENC emits
for a pixel sequence, ends in DONE with exactly that sequence, every byte consumed, and with ENC's own final `prev`
and `cache`. -/
def Obligations.TokenRoundTrip : Prop :=
  ∀ c : Config, c.Legal → ∀ (pixels : List Pixel) (s : State),
    let d := (decodeRunFrom c (encodeTokens c pixels) pixels.length s).dec
    d.status = .done ∧ d.pout = pixels ∧ d.ip = (encodeTokens c pixels).length ∧
      d.prev = (encodeRun c pixels).prev ∧ d.cache = (encodeRun c pixels).cache

/-- 45_laws.md R332 (derived by the spec): `Decode` of `Encode` is the image, for every legal MAGIC, EOF_MARKER and
tag assignment. -/
def Obligations.FileRoundTrip : Prop :=
  ∀ c : Config, c.Legal → ∀ img : Image,
    img.pixels.length = img.hdr.width.toNat * img.hdr.height.toNat → img.pixels ≠ [] →
    (img.hdr.channels = 3 ∨ img.hdr.channels = 4) → (img.hdr.colorspace = 0 ∨ img.hdr.colorspace = 1) →
    ∃ file, encodeFile c img = .ok file ∧ decodeFile c file = some (.ok img)

/-- 43_decoder.md R200, R212, 70_reset_and_hazards.md R302 (the spec's decision D10; log entry 5): the machine, told
by the host the stream, its length, the size and then `start`, in any state in which DEC takes them, comes by steps to
the result of `DecodeTokens`, whatever bytes stand above the stream; ENC and the framing layer are not touched. -/
def Obligations.MachineDecRunIsDecodeTokens : Prop :=
  ∀ (s : State) (t : List Byte) (n : Nat), s.dec.status ≠ .run → (∀ h, s.frm.phase ≠ .decoding h) → s.dec.tin.wf →
    ∃ (k : Nat) (u : State),
      core.run k (s.setInputs [.cmd (.writeTin 0 t), .cmd (.writeTlen t.length), .cmd (.writeNpix n), .cmd .decStart]) =
        .next u ∧
      decResult u.dec = decodeTokens standardConfig t n ∧ u.enc = s.enc ∧ u.frm = s.frm ∧ u.inputs = []

/-- 42_encoder.md R160, R172, 70_reset_and_hazards.md R302 (the spec's decisions D3, D8, D10; log entry 5): the
machine, given `start`, a push for each pixel and `finish`, in any state in which ENC takes them, comes to the token
stream of `EncodeTokens`; DEC and the framing layer are not touched. That PIN then holds exactly these pixels is log
entry 8. -/
def Obligations.MachineEncRunIsEncodeTokens : Prop :=
  ∀ (s : State) (pixels : List Pixel), s.enc.status ≠ .run → (∀ hb, s.frm.phase ≠ .encoding hb) →
    ∃ u : State,
      core.run (pixels.length + 2)
        (s.setInputs (.cmd .encStart :: (pixels.map (fun p => .cmd (.encPush p)) ++ [.cmd .encFinish]))) = .next u ∧
      encResult u.enc = some (encodeTokens standardConfig pixels) ∧ u.enc.pin = pixels ∧
      u.dec = s.dec ∧ u.frm = s.frm ∧ u.inputs = []

/-- 44_file_framing.md R244, 70_reset_and_hazards.md R302 (the spec's decisions D10, D19; log entries 5, 9, 10): the
machine, given the command `Decode` in any state in which it takes it, comes to the result that `Decode` as a function
gives: the image at DONE, or the cause at FAULT and no image. That the framing layer's cause is DEC's where DEC fails
is log entry 19, and that an old result is gone is log entry 20. -/
def Obligations.MachineDecodeIsDecode : Prop :=
  ∀ (s : State) (file : List Byte), s.frm.status ≠ .run → s.dec.status ≠ .run →
    ∃ (k : Nat) (t : State), core.run k (s.setInputs [.cmd (.decode file)]) = .next t ∧ t.inputs = [] ∧
      match decodeFile standardConfig file with
      | some (.ok img)  => t.frm.status = .done ∧ t.frm.cause = none ∧ t.frm.result = some img
      | some (.error e) => t.frm.status = .fault ∧ t.frm.cause = some e ∧ t.frm.result = none
      | none            => False

/-- 44_file_framing.md R242, 42_encoder.md R172 (the spec's decisions D8, D9, D15; log entries 5, 9, 10, 12, 20): the
machine, given the command `Encode` in any state in which it takes it and enough turns of the framing layer, comes to
the file that `Encode` as a function gives, or to its cause and no byte; DEC is not touched. -/
def Obligations.MachineEncodeIsEncode : Prop :=
  ∀ (s : State) (pixels : List Pixel), s.frm.status ≠ .run → s.enc.status ≠ .run →
    ∃ t : State,
      core.run (pixels.length + 3)
        (s.setInputs (.cmd (.encode pixels) :: List.replicate (pixels.length + 2) .frmTurn)) = .next t ∧
      t.inputs = [] ∧ t.dec = s.dec ∧
      match encodeFile standardConfig ⟨s.frm.hdr, pixels⟩ with
      | .ok file => t.frm.status = .done ∧ t.frm.cause = none ∧ t.frm.file = file
      | .error e => t.frm.status = .fault ∧ t.frm.cause = some e ∧ t.frm.file = []

/-- 10_state.md R22 to R26 (R22, R24, R25 derived by the spec), R29 (its decision D6), 42_encoder.md R173: from every
state that meets the invariant, whatever input comes, a step gives a state that meets it. The clauses on the framing
layer rest on log entry 9, the bound on ENC's index on log entry 8, and that a host's write or command during a run
breaks no clause rests on log entries 10 and 11 (the spec leaves such a run's result unspecified, R304, U9). -/
def Obligations.StepKeepsTheInvariant : Prop :=
  ∀ s t : State, s.Inv → step s = .next t → t.Inv

/-- The state after power-on reset (10_state.md R35; log entries 2, 8, 9) meets the invariant. -/
def Obligations.ResetMeetsTheInvariant : Prop := State.reset.Inv

/-- 70_reset_and_hazards.md R301, 10_state.md R35 (the spec's decision D12): what power-on reset leaves, in
State.reset and when it arrives as an input (log entry 16): status IDLE (the framing layer's by log entry 9), cause
NONE, outputs empty; then no step is enabled until a command comes, which the step answers with a fault (log entry 6).
-/
def Obligations.PowerOnResetIdlesEveryUnit : Prop :=
  (∀ (s : State) (more : List Input), s.inputs = .powerOn :: more → ∃ t, step s = .next t ∧
    t.enc.status = .idle ∧ t.dec.status = .idle ∧ t.frm.status = .idle ∧
    t.dec.cause = none ∧ t.frm.cause = none ∧ t.enc.tout = [] ∧ t.dec.pout = [] ∧ t.frm.file = [] ∧
    t.inputs = more ∧ (more = [] → step t = .fault .noStepEnabled)) ∧
  State.reset.enc.status = .idle ∧ State.reset.dec.status = .idle ∧ State.reset.frm.status = .idle ∧
  State.reset.dec.cause = none ∧ State.reset.frm.cause = none ∧
  State.reset.enc.tout = [] ∧ State.reset.dec.pout = [] ∧ State.reset.frm.file = []

/-- 70_reset_and_hazards.md R303, 10_state.md R33 (the spec's decision D4): what is a result, and when. -/
def Obligations.ResultsExistOnlyAtTheEnd : Prop :=
  (∀ e : Enc, encResult e = if e.status = .done then some e.tout else none) ∧
  (∀ d : Dec, d.status = .idle ∨ d.status = .run → decResult d = none) ∧
  (∀ d : Dec, d.status = .done → decResult d = some (.ok d.pout)) ∧
  (∀ (d : Dec) (k : Cause), d.status = .fault → d.cause = some k → decResult d = some (.error k))
end

