-- ==== Sys2Proof/Laws/Operands.lean ====
section
/-! SUPPORT. What the byte, delta and hash functions give, as arithmetic on natural numbers and integers. -/

namespace Sys2Proof.Machine

/-- `u8` is the remainder modulo 256. -/
theorem u8_toNat (x : Int) : ((u8 x).toNat : Int) = x % 256 := by
  simp only [u8, BitVec.toNat_ofInt]
  omega

/-- A byte is `u8` of its value. -/
theorem u8_toNat_self (b : Byte) : u8 (b.toNat : Int) = b := by
  apply BitVec.eq_of_toNat_eq
  have := u8_toNat (b.toNat : Int)
  have := b.isLt
  omega

/-- `u8` sees an integer only modulo 256. -/
theorem u8_congr {x y : Int} (h : x % 256 = y % 256) : u8 x = u8 y := by
  apply BitVec.eq_of_toNat_eq
  have := u8_toNat x
  have := u8_toNat y
  omega

/-- The value of a small `u8`. -/
theorem u8_toNat_of_lt {x : Int} (h0 : 0 ≤ x) (h1 : x < 256) : ((u8 x).toNat : Int) = x := by
  rw [u8_toNat]; omega

theorem s8_range (x : Int) : -128 ≤ s8 x ∧ s8 x ≤ 127 := by
  unfold s8; omega

theorem s8_mod (x : Int) : s8 x % 256 = x % 256 := by
  unfold s8; omega

/-- A delta applied to the byte it was taken from gives the other byte (R124). -/
theorem apply_delta (new old : Byte) : applyDelta old (delta new old) = new := by
  have h := s8_mod ((new.toNat : Int) - old.toNat)
  have e : u8 ((old.toNat : Int) + delta new old) = u8 (new.toNat : Int) := u8_congr (by rw [delta]; omega)
  rw [applyDelta, e, u8_toNat_self]

theorem hash_val (p : Pixel) : (pixelHash p).val = hashSum p % 64 := rfl

@[simp] theorem hash_cacheInit : pixelHash cacheInit = 0 := by decide

@[simp] theorem hash_prevInit : pixelHash prevInit = 0 := by decide

/-- The value of `unBE32`: it always fits. -/
theorem unBe32_toNat (c0 c1 c2 c3 : Byte) :
    (unBe32 c0 c1 c2 c3).toNat = c0.toNat * 2 ^ 24 + c1.toNat * 2 ^ 16 + c2.toNat * 2 ^ 8 + c3.toNat := by
  have := c0.isLt; have := c1.isLt; have := c2.isLt; have := c3.isLt
  simp only [unBe32, BitVec.toNat_ofNat]
  omega

end Sys2Proof.Machine
end

