-- ==== Sys2Proof/Laws/Decode.lean ====
section
/-! SUPPORT. The decoder's parts: what a field can be, and which class a first byte is in, as arithmetic. -/

namespace Sys2Proof

open Sys2Proof.Machine

theorem field_top (b : Byte) : field b 7 6 = b.toNat / 64 := by
  have := b.isLt
  simp only [field]; omega

theorem field_low6 (b : Byte) : field b 5 0 = b.toNat % 64 := by
  simp [field]

/-- The exact tags are the two highest bytes (30_encoding.md R84). -/
theorem ne_tags {c : Config} (hc : c.Legal) {b : Byte} (h : b.toNat < 254) : b ≠ c.tagRgb ∧ b ≠ c.tagRgba := by
  obtain ⟨-, -, ⟨h1, h2⟩ | ⟨h1, h2⟩⟩ := hc <;> rw [h1, h2] <;>
    exact ⟨fun e => by subst e; simp at h, fun e => by subst e; simp at h⟩

/-- The class of a byte in the `01` quarter (30_encoding.md R85), under either assignment of the exact tags. -/
theorem classify_diff {c : Config} (hc : c.Legal) {b : Byte} (h0 : 64 ≤ b.toNat) (h1 : b.toNat < 128) :
    classify c b = .diff := by
  have hf : field b 7 6 = 1 := by rw [field_top]; omega
  simp [classify, ne_tags hc (b := b) (by omega), hf]

/-- The class of a byte in the `10` quarter. -/
theorem classify_luma {c : Config} (hc : c.Legal) {b : Byte} (h0 : 128 ≤ b.toNat) (h1 : b.toNat < 192) :
    classify c b = .luma := by
  have hf : field b 7 6 = 2 := by rw [field_top]; omega
  simp [classify, ne_tags hc (b := b) (by omega), hf]

/-- The class of a byte in the `11` quarter below the exact tags. -/
theorem classify_run {c : Config} (hc : c.Legal) {b : Byte} (h0 : 192 ≤ b.toNat) (h1 : b.toNat < 254) :
    classify c b = .run := by
  have hf : field b 7 6 = 3 := by rw [field_top]; omega
  simp [classify, ne_tags hc h1, hf]

/-- The class of a byte in the `00` quarter. -/
theorem classify_index {c : Config} (hc : c.Legal) {b : Byte} (h1 : b.toNat < 64) : classify c b = .index := by
  have hf : field b 7 6 = 0 := by rw [field_top]; omega
  simp [classify, ne_tags hc (b := b) (by omega), hf]

@[simp] theorem classify_tagRgb (c : Config) : classify c c.tagRgb = .rgb := by simp [classify]

theorem classify_tagRgba {c : Config} (hc : c.Legal) : classify c c.tagRgba = .rgba := by
  obtain ⟨-, -, ht⟩ := hc
  rcases ht with ⟨h, h'⟩ | ⟨h, h'⟩ <;> simp [classify, h, h']

theorem standardConfig_legal : standardConfig.Legal := by decide

/-- Enough bytes always make a token of the class, and the rest is what stands after its length
(30_encoding.md R86, R93). -/
theorem assemble_ok (k : TokenClass) (b0 : Byte) (rest : List Byte) (h : tokenLength k ≤ rest.length + 1) :
    ∃ i, assemble k b0 rest = .ok (i, rest.drop (tokenLength k - 1)) := by
  cases k with
  | rgb =>
    obtain _ | ⟨r, _ | ⟨g, _ | ⟨b, rest⟩⟩⟩ := rest
    all_goals first
      | exact ⟨_, rfl⟩
      | (simp [tokenLength] at h)
  | rgba =>
    obtain _ | ⟨r, _ | ⟨g, _ | ⟨b, _ | ⟨a, rest⟩⟩⟩⟩ := rest
    all_goals first
      | exact ⟨_, rfl⟩
      | (simp [tokenLength] at h)
  | luma =>
    obtain _ | ⟨b1, rest⟩ := rest
    · simp [tokenLength] at h
    · exact ⟨_, rfl⟩
  | diff => exact ⟨_, rfl⟩
  | run => exact ⟨_, rfl⟩
  | index => exact ⟨_, rfl⟩

/-- Too few bytes make none. -/
theorem assemble_short (k : TokenClass) (b0 : Byte) (rest : List Byte) (h : rest.length + 1 < tokenLength k) :
    assemble k b0 rest = .error (.operandsMissing k) := by
  cases k with
  | rgb =>
    obtain _ | ⟨r, _ | ⟨g, _ | ⟨b, rest⟩⟩⟩ := rest
    all_goals first
      | rfl
      | (simp [tokenLength] at h; omega)
  | rgba =>
    obtain _ | ⟨r, _ | ⟨g, _ | ⟨b, _ | ⟨a, rest⟩⟩⟩⟩ := rest
    all_goals first
      | rfl
      | (simp [tokenLength] at h; omega)
  | luma =>
    obtain _ | ⟨b1, rest⟩ := rest
    · rfl
    · simp [tokenLength] at h
  | diff => simp [tokenLength] at h
  | run => simp [tokenLength] at h
  | index => simp [tokenLength] at h

end Sys2Proof
end

