-- ==== Sys2Proof/Laws/State.lean ====
section
/-! SUPPORT. One lemma per field per update of the state, so that no later proof unfolds a record update. -/

namespace Sys2Proof.Machine

section SetUnit
variable (s : State) (e : Enc) (d : Dec) (f : Framer) (l : List Input)

@[simp] theorem setEnc_enc : (s.setEnc e).enc = e := rfl
@[simp] theorem setEnc_dec : (s.setEnc e).dec = s.dec := rfl
@[simp] theorem setEnc_frm : (s.setEnc e).frm = s.frm := rfl
@[simp] theorem setEnc_inputs : (s.setEnc e).inputs = s.inputs := rfl
@[simp] theorem setEnc_free : (s.setEnc e).free = s.free := rfl
@[simp] theorem setDec_enc : (s.setDec d).enc = s.enc := rfl
@[simp] theorem setDec_dec : (s.setDec d).dec = d := rfl
@[simp] theorem setDec_frm : (s.setDec d).frm = s.frm := rfl
@[simp] theorem setDec_inputs : (s.setDec d).inputs = s.inputs := rfl
@[simp] theorem setDec_free : (s.setDec d).free = s.free := rfl
@[simp] theorem setFrm_enc : (s.setFrm f).enc = s.enc := rfl
@[simp] theorem setFrm_dec : (s.setFrm f).dec = s.dec := rfl
@[simp] theorem setFrm_frm : (s.setFrm f).frm = f := rfl
@[simp] theorem setFrm_inputs : (s.setFrm f).inputs = s.inputs := rfl
@[simp] theorem setFrm_free : (s.setFrm f).free = s.free := rfl
@[simp] theorem setInputs_enc : (s.setInputs l).enc = s.enc := rfl
@[simp] theorem setInputs_dec : (s.setInputs l).dec = s.dec := rfl
@[simp] theorem setInputs_frm : (s.setInputs l).frm = s.frm := rfl
@[simp] theorem setInputs_inputs : (s.setInputs l).inputs = l := rfl
@[simp] theorem setInputs_free : (s.setInputs l).free = s.free := rfl

end SetUnit

section Update
variable (h : History) (p : Pixel)

@[simp] theorem init_prev : History.init.prev = prevInit := rfl
@[simp] theorem store_prev : (h.store p).prev = h.prev := rfl
@[simp] theorem update_prev : (h.update p).prev = p := rfl
@[simp] theorem update_cache : (h.update p).cache = (h.store p).cache := rfl

/-- Every slot starts at CACHE_INIT (10_state.md R35). -/
@[simp] theorem init_slot (k : Fin 64) : History.init.cache[k] = cacheInit := by
  simp [History.init]

/-- The slot of the stored pixel holds it. -/
@[simp] theorem store_slot : (h.store p).cache[pixelHash p] = p := by
  simp [History.store]

/-- No other slot is touched by a store. -/
theorem store_other (k : Fin 64) (hk : k ≠ pixelHash p) : (h.store p).cache[k] = h.cache[k] := by
  have : (pixelHash p).val ≠ k.val := fun e => hk (Fin.ext e.symm)
  simp [History.store, Vector.getElem_set_ne _ _ this]

end Update

section RaiseFields
variable (k : Cause) (s : State)

@[simp] theorem raise_dec_status : (raise .dec k s).dec.status = .fault := rfl
@[simp] theorem raise_dec_cause : (raise .dec k s).dec.cause = some k := rfl
@[simp] theorem raise_dec_pout : (raise .dec k s).dec.pout = [] := rfl
@[simp] theorem raise_dec_npix : (raise .dec k s).dec.npix = s.dec.npix := rfl
@[simp] theorem raise_dec_tlen : (raise .dec k s).dec.tlen = s.dec.tlen := rfl
@[simp] theorem raise_dec_tin : (raise .dec k s).dec.tin = s.dec.tin := rfl
@[simp] theorem raise_dec_enc : (raise .dec k s).enc = s.enc := rfl
@[simp] theorem raise_dec_frm : (raise .dec k s).frm = s.frm := rfl
@[simp] theorem raise_dec_inputs : (raise .dec k s).inputs = s.inputs := rfl
@[simp] theorem raise_frm_status : (raise .frm k s).frm.status = .fault := rfl
@[simp] theorem raise_frm_cause : (raise .frm k s).frm.cause = some k := rfl
@[simp] theorem raise_frm_phase : (raise .frm k s).frm.phase = .idle := rfl
@[simp] theorem raise_frm_result : (raise .frm k s).frm.result = none := rfl
@[simp] theorem raise_frm_file : (raise .frm k s).frm.file = s.frm.file := rfl
@[simp] theorem raise_frm_hdr : (raise .frm k s).frm.hdr = s.frm.hdr := rfl
@[simp] theorem raise_frm_enc : (raise .frm k s).enc = s.enc := rfl
@[simp] theorem raise_frm_dec : (raise .frm k s).dec = s.dec := rfl
@[simp] theorem raise_frm_inputs : (raise .frm k s).inputs = s.inputs := rfl

end RaiseFields

section TailFields
variable (px : Pixel) (n len : Nat) (d : Dec)

@[simp] theorem tail_toHistory : (d.tail px n len).toHistory = d.toHistory.update px := rfl
@[simp] theorem tail_prev : (d.tail px n len).prev = px := rfl
@[simp] theorem tail_cache : (d.tail px n len).cache = (d.toHistory.store px).cache := rfl
@[simp] theorem tail_pout : (d.tail px n len).pout = d.pout ++ List.replicate n px := rfl
@[simp] theorem tail_ip : (d.tail px n len).ip = d.ip + len := rfl
@[simp] theorem tail_op : (d.tail px n len).op = d.op + n := rfl
@[simp] theorem tail_status :
    (d.tail px n len).status = if d.op + n = d.npix then .done else d.status := rfl
@[simp] theorem tail_cause : (d.tail px n len).cause = d.cause := rfl
@[simp] theorem tail_npix : (d.tail px n len).npix = d.npix := rfl
@[simp] theorem tail_tlen : (d.tail px n len).tlen = d.tlen := rfl
@[simp] theorem tail_tin : (d.tail px n len).tin = d.tin := rfl

end TailFields

section StartFields
variable (e : Enc) (d : Dec)

@[simp] theorem encStart_toHistory : (encStart e).toHistory = History.init := rfl
@[simp] theorem encStart_run : (encStart e).run = 0 := rfl
@[simp] theorem encStart_ip : (encStart e).ip = 0 := rfl
@[simp] theorem encStart_tout : (encStart e).tout = [] := rfl
@[simp] theorem encStart_status : (encStart e).status = .run := rfl
@[simp] theorem encStart_pin : (encStart e).pin = e.pin := rfl
@[simp] theorem decStart_toHistory : (decStart d).toHistory = History.init := rfl
@[simp] theorem decStart_ip : (decStart d).ip = 0 := rfl
@[simp] theorem decStart_op : (decStart d).op = 0 := rfl
@[simp] theorem decStart_pout : (decStart d).pout = [] := rfl
@[simp] theorem decStart_cause : (decStart d).cause = none := rfl
@[simp] theorem decStart_status : (decStart d).status = if d.npix = 0 then .done else .run := rfl
@[simp] theorem decStart_npix : (decStart d).npix = d.npix := rfl
@[simp] theorem decStart_tlen : (decStart d).tlen = d.tlen := rfl
@[simp] theorem decStart_tin : (decStart d).tin = d.tin := rfl

end StartFields

section EncoderFields
variable (c : Config) (e : Enc) (bs : List Byte) (p : Pixel)

@[simp] theorem emit_toHistory : (e.emit bs).toHistory = e.toHistory := rfl
@[simp] theorem emit_tout : (e.emit bs).tout = e.tout ++ bs := rfl
@[simp] theorem emit_run : (e.emit bs).run = e.run := rfl
@[simp] theorem emit_ip : (e.emit bs).ip = e.ip := rfl
@[simp] theorem emit_pin : (e.emit bs).pin = e.pin := rfl
@[simp] theorem emit_status : (e.emit bs).status = e.status := rfl
@[simp] theorem emitRun_toHistory : (e.emitRun c).toHistory = e.toHistory := rfl
@[simp] theorem emitRun_tout : (e.emitRun c).tout = e.tout ++ encode c (.run e.run) := rfl
@[simp] theorem emitRun_run : (e.emitRun c).run = 0 := rfl
@[simp] theorem emitRun_ip : (e.emitRun c).ip = e.ip := rfl
@[simp] theorem emitRun_pin : (e.emitRun c).pin = e.pin := rfl
@[simp] theorem emitRun_status : (e.emitRun c).status = e.status := rfl
@[simp] theorem encUpdate_toHistory : (e.update p).toHistory = e.toHistory.update p := rfl
@[simp] theorem encUpdate_tout : (e.update p).tout = e.tout := rfl
@[simp] theorem encUpdate_run : (e.update p).run = e.run := rfl
@[simp] theorem encUpdate_ip : (e.update p).ip = e.ip := rfl
@[simp] theorem encUpdate_pin : (e.update p).pin = e.pin := rfl
@[simp] theorem encUpdate_status : (e.update p).status = e.status := rfl

end EncoderFields

end Sys2Proof.Machine
end

