-- ==== Sys2Proof/Laws/Encoder.lean ====
section
/-! SUPPORT. What the shared operations of ENC do, as one equation or record each. -/

namespace Sys2Proof.Machine

/-- The flush, whether or not pixels are pending. -/
theorem flushRun_eq (c : Config) (e : Enc) : e.flushRun c = { e with tout := e.tout ++ owedRun e, run := 0 } := by
  unfold Enc.flushRun owedRun
  by_cases h : 0 < e.run
  · simp [h, Enc.emitRun, Enc.emit, encode]
  · have : e.run = 0 := by omega
    rcases e with ⟨⟩
    simp_all

/-- The bytes of the token that ENC picks for a pixel other than `prev`. -/
def pickedBytes (c : Config) (p : Pixel) (e : Enc) : List Byte :=
  if e.cache[pixelHash p] = p then encode c (.index (pixelHash p)) else encode c (chooseToken e.prev p)

/-- Everything the pixel step does with a pixel other than `prev`. -/
theorem encPixel_other {c : Config} {p : Pixel} {e : Enc} (hp : p ≠ e.prev) :
    EncEmitted (pickedBytes c p e) p e (encPixel c p e) := by
  have he : encPixel c p e =
      { ((e.flushRun c).emitPixel c p).update p with ip := ((e.flushRun c).emitPixel c p).ip + 1 } := by
    simp [encPixel, hp]
  by_cases hc : e.cache[pixelHash p] = p
  · have : (e.flushRun c).emitPixel c p = (e.flushRun c).emit (encode c (.index (pixelHash p))) := by
      rw [flushRun_eq]; simp [Enc.emitPixel, hc]
    rw [he, this, flushRun_eq]
    simp only [pickedBytes, hc, if_true]
    exact ⟨rfl, rfl, rfl, store_slot _ _, fun k hk => store_other _ _ k hk, rfl, rfl, rfl⟩
  · have : (e.flushRun c).emitPixel c p =
        { e.flushRun c with toHistory := (e.flushRun c).toHistory.store p }.emit (encode c (chooseToken e.prev p)) := by
      rw [flushRun_eq]; simp [Enc.emitPixel]; exact fun h => absurd h hc
    rw [he, this, flushRun_eq]
    simp only [pickedBytes, hc, if_false]
    exact ⟨rfl, rfl, rfl, store_slot _ _,
      fun k hk => ((store_other _ p k hk).trans (store_other e.toHistory p k hk)), rfl, rfl, rfl⟩

end Sys2Proof.Machine
end

