-- ==== Sys2Proof/Laws/Exec.lean ====
section
/-! SUPPORT. One lemma per shared operation of DEC, saying once everything it can do; later proofs cite these and do
not unfold the operation. -/

namespace Sys2Proof.Machine

/-- The tail is TokenDone. -/
theorem tail_tokenDone (px : Pixel) (n len : Nat) (s : State) :
    TokenDone px n len s (s.setDec (s.dec.tail px n len)) where
  prev := rfl
  slot := store_slot _ _
  other_slots k hk := store_other _ _ k hk
  pout := rfl
  ip := rfl
  op := rfl
  status := rfl
  cause := rfl
  npix := rfl
  tlen := rfl
  tin _ := rfl
  enc := rfl
  frm := rfl
  inputs := rfl

/-- `raise` in DEC is DecFailed. -/
theorem raise_decFailed (k : Cause) (s : State) : DecFailed k s (raise .dec k s) where
  status := rfl
  cause := rfl
  pout := rfl
  npix := rfl
  tlen := rfl
  tin _ := rfl
  enc := rfl
  frm := rfl
  inputs := rfl

/-- Where the pixels fit, the token is done. -/
theorem produce_fits {px : Pixel} {n len : Nat} {s : State} (h : s.dec.op + n ≤ s.dec.npix) :
    produce px n len s = .next (s.setDec (s.dec.tail px n len)) := by
  simp [produce, Nat.not_lt.2 h]

/-- Where they do not, DEC fails with RUN_OVERRUN. -/
theorem produce_overruns {px : Pixel} {n len : Nat} {s : State} (h : s.dec.npix < s.dec.op + n) :
    produce px n len s = .next (raise .dec .runOverrun s) := by
  simp [produce, h]

/-- Every token is `produce` of some pixel, for its own number of pixels and its own length. -/
theorem exec_produces (i : Instr) (s : State) :
    ∃ px, exec i s = produce px (tokenPixels i) (tokenLength i.tokenClass) s := by
  cases i <;> exact ⟨_, rfl⟩

/-- That pixel depends on `prev` and the cache alone. -/
theorem exec_produces_from_history (i : Instr) (s : State) :
    ∃ px, ∀ t : State, t.dec.toHistory = s.dec.toHistory →
      exec i t = produce px (tokenPixels i) (tokenLength i.tokenClass) t := by
  cases i with
  | rgb r g b => exact ⟨⟨r, g, b, s.dec.prev.a⟩, fun t h => by rw [← h]; rfl⟩
  | rgba r g b a => exact ⟨⟨r, g, b, a⟩, fun _ _ => rfl⟩
  | diff dr dg db => exact ⟨applyDeltas s.dec.prev dr dg db, fun t h => by rw [← h]; rfl⟩
  | luma dg drdg dbdg =>
    exact ⟨applyDeltas s.dec.prev (dg + drdg) dg (dg + dbdg), fun t h => by rw [← h]; rfl⟩
  | run n => exact ⟨s.dec.prev, fun t h => by rw [← h]; rfl⟩
  | index k => exact ⟨s.dec.cache[k], fun t h => by rw [← h]; rfl⟩

/-- Everything a token can do. -/
theorem exec_cases (i : Instr) (s : State) :
    (∃ px, s.dec.op + tokenPixels i ≤ s.dec.npix ∧
      exec i s = .next (s.setDec (s.dec.tail px (tokenPixels i) (tokenLength i.tokenClass)))) ∨
    (s.dec.npix < s.dec.op + tokenPixels i ∧ exec i s = .next (raise .dec .runOverrun s)) := by
  obtain ⟨px, h⟩ := exec_produces i s
  rcases Nat.lt_or_ge s.dec.npix (s.dec.op + tokenPixels i) with hlt | hge
  · exact .inr ⟨hlt, h.trans (produce_overruns hlt)⟩
  · exact .inl ⟨px, hge, h.trans (produce_fits hge)⟩

theorem memRead_length (m : Memory) (a n : Nat) : (memRead m a n).length = n := by simp [memRead]

theorem memRead_succ (m : Memory) (a n : Nat) : memRead m a (n + 1) = m.read a :: memRead m (a + 1) n := by
  simp only [memRead, List.range_succ_eq_map, List.map_cons, Nat.add_zero, List.map_map, List.cons.injEq, true_and]
  exact List.map_congr_left fun i _ => by simp only [Function.comp_apply, Nat.succ_eq_add_one]; congr 1; omega

/-- Where a whole token stands at `dec.ip`, the fetch gives one. -/
theorem fetch_ok {c : Config} {d : Dec} (hip : d.ip < d.tlen)
    (hlen : d.ip + tokenLength (classify c (d.tin.read d.ip)) ≤ d.tlen) :
    ∃ i, fetch c d = .ok i ∧
      decode c (memRead d.tin d.ip (tokenLength (classify c (d.tin.read d.ip)))) = .ok (i, []) := by
  have hpos : 0 < tokenLength (classify c (d.tin.read d.ip)) := by
    cases classify c (d.tin.read d.ip) <;> decide
  obtain ⟨m, hm⟩ := Nat.exists_eq_succ_of_ne_zero hpos.ne'
  obtain ⟨i, hi⟩ := assemble_ok (classify c (d.tin.read d.ip)) (d.tin.read d.ip) (memRead d.tin (d.ip + 1) m)
    (by rw [memRead_length]; omega)
  have hdrop : (memRead d.tin (d.ip + 1) m).drop (tokenLength (classify c (d.tin.read d.ip)) - 1) = [] :=
    List.drop_eq_nil_of_le (by rw [memRead_length]; omega)
  have hd : decode c (memRead d.tin d.ip (tokenLength (classify c (d.tin.read d.ip)))) = .ok (i, []) := by
    rw [hm, memRead_succ, decode, hi, hdrop]
  exact ⟨i, by simp [fetch, Nat.not_le.2 hip, Nat.not_lt.2 hlen, hd], hd⟩

/-- Everything a fetch can do: TRUNCATED, or a token that lies within the stream. -/
theorem fetch_cases (c : Config) (d : Dec) :
    fetch c d = .error .truncated ∨
    ∃ i, d.ip < d.tlen ∧ d.ip + tokenLength (classify c (d.tin.read d.ip)) ≤ d.tlen ∧ fetch c d = .ok i ∧
      decode c (memRead d.tin d.ip (tokenLength (classify c (d.tin.read d.ip)))) = .ok (i, []) := by
  rcases Nat.lt_or_ge d.ip d.tlen with hip | hip
  · rcases Nat.lt_or_ge d.tlen (d.ip + tokenLength (classify c (d.tin.read d.ip))) with hl | hl
    · exact .inl (by simp [fetch, Nat.not_le.2 hip, hl])
    · obtain ⟨i, h1, h2⟩ := fetch_ok hip hl
      exact .inr ⟨i, hip, hl, h1, h2⟩
  · exact .inl (by simp [fetch, hip])

/-- A decoded token is of the class of its first byte. -/
theorem decode_class {c : Config} {b0 : Byte} {rest rest' : List Byte} {i : Instr}
    (h : decode c (b0 :: rest) = .ok (i, rest')) : i.tokenClass = classify c b0 := by
  rw [decode] at h
  generalize classify c b0 = k at *
  unfold assemble at h
  split at h <;> simp_all <;> (obtain ⟨rfl, -⟩ := h; rfl)

theorem memRead_add (m : Memory) (a n k : Nat) : memRead m a (n + k) = memRead m a n ++ memRead m (a + n) k := by
  simp [memRead, List.range_add, Function.comp_def, Nat.add_assoc]

/-- A token decodes the same whatever follows it. -/
theorem decode_append {c : Config} {bs rest : List Byte} {i : Instr} (h : decode c bs = .ok (i, rest))
    (more : List Byte) : decode c (bs ++ more) = .ok (i, rest ++ more) := by
  cases bs with
  | nil => simp [decode] at h
  | cons b0 tl =>
    simp only [decode, List.cons_append] at *
    generalize classify c b0 = k at *
    unfold assemble at h
    split at h <;> simp at h
    all_goals obtain ⟨rfl, rfl⟩ := h; rfl

/-- A decoded token stands for at least one pixel. -/
theorem decode_pixels_pos {c : Config} {bs rest : List Byte} {i : Instr} (h : decode c bs = .ok (i, rest)) :
    1 ≤ tokenPixels i := by
  cases bs with
  | nil => simp [decode] at h
  | cons b0 tl =>
    simp only [decode] at h
    generalize classify c b0 = k at *
    unfold assemble at h
    split at h <;> simp at h
    all_goals obtain ⟨rfl, -⟩ := h; simp [tokenPixels]

/-- Decoding takes as many bytes as the class of the token has. -/
theorem decode_length {c : Config} {bs rest : List Byte} {i : Instr} (h : decode c bs = .ok (i, rest)) :
    bs.length = tokenLength i.tokenClass + rest.length := by
  cases bs with
  | nil => simp [decode] at h
  | cons b0 tl =>
    rw [decode_class h]
    rcases Nat.lt_or_ge (tl.length + 1) (tokenLength (classify c b0)) with hl | hl
    · rw [decode, assemble_short _ b0 tl hl] at h
      simp at h
    · have hpos : 1 ≤ tokenLength (classify c b0) := by cases classify c b0 <;> decide
      obtain ⟨j, hj⟩ := assemble_ok _ b0 tl hl
      rw [decode, hj] at h
      simp only [Except.ok.injEq, Prod.mk.injEq] at h
      obtain ⟨-, rfl⟩ := h
      simp only [List.length_cons, List.length_drop]
      omega

/-- The fetch is the decoding of the bytes from `dec.ip` to the end of the stream. -/
theorem fetch_eq (c : Config) (d : Dec) :
    fetch c d = match decode c (memRead d.tin d.ip (d.tlen - d.ip)) with
      | .ok (i, _) => .ok i
      | .error _   => .error .truncated := by
  rcases fetch_cases c d with h | ⟨i, h1, h2, h3, h4⟩
  · rw [h]
    by_cases hip : d.tlen ≤ d.ip
    · rw [Nat.sub_eq_zero_of_le hip]; rfl
    · have hl : d.tlen < d.ip + tokenLength (classify c (d.tin.read d.ip)) := by
        by_contra hh
        obtain ⟨i, e, -⟩ := fetch_ok (c := c) (d := d) (by omega) (by omega)
        rw [h] at e; simp at e
      obtain ⟨m, hm⟩ := Nat.exists_eq_succ_of_ne_zero (n := d.tlen - d.ip) (by omega)
      rw [hm, memRead_succ, decode, assemble_short _ _ _ (by rw [memRead_length]; omega)]
  · rw [h3]
    obtain ⟨m, hm⟩ := Nat.exists_eq_add_of_le
      (show tokenLength (classify c (d.tin.read d.ip)) ≤ d.tlen - d.ip by omega)
    rw [hm, memRead_add, decode_append h4]

/-- Everything a token step can do: the tail of a fetched token that fits the stream and the output, or one of the two
failures, each with its reason. -/
theorem decToken_cases (c : Config) (s : State) :
    (∃ i px, fetch c s.dec = .ok i ∧ 1 ≤ tokenPixels i ∧ s.dec.op + tokenPixels i ≤ s.dec.npix ∧
      s.dec.ip + tokenLength i.tokenClass ≤ s.dec.tlen ∧
      (∀ t : State, t.dec.toHistory = s.dec.toHistory →
        exec i t = produce px (tokenPixels i) (tokenLength i.tokenClass) t) ∧
      decToken c s = .next (s.setDec (s.dec.tail px (tokenPixels i) (tokenLength i.tokenClass)))) ∨
    (fetch c s.dec = .error .truncated ∧ decToken c s = .next (raise .dec .truncated s)) ∨
    (∃ i, fetch c s.dec = .ok i ∧ s.dec.npix < s.dec.op + tokenPixels i ∧
      decToken c s = .next (raise .dec .runOverrun s)) := by
  rcases fetch_cases c s.dec with h | ⟨i, h1, h2, h3, h4⟩
  · exact .inr (.inl ⟨h, by rw [decToken, h]⟩)
  · have hlen := decode_length h4
    rw [memRead_length, List.length_nil] at hlen
    obtain ⟨px, hx⟩ := exec_produces_from_history i s
    have hd : decToken c s = produce px (tokenPixels i) (tokenLength i.tokenClass) s := by
      rw [decToken, h3]; exact hx s rfl
    rcases Nat.lt_or_ge s.dec.npix (s.dec.op + tokenPixels i) with hlt | hge
    · exact .inr (.inr ⟨i, h3, hlt, hd.trans (produce_overruns hlt)⟩)
    · exact .inl ⟨i, px, h3, decode_pixels_pos h4, hge, by omega, hx, hd.trans (produce_fits hge)⟩

/-- One more step of a run. -/
theorem run_next {M : Host.Core} {s t : M.State} (h : M.step s = .next t) (k : Nat) : M.run (k + 1) s = M.run k t := by
  rw [Host.Core.run, h]

/-- One more step of this machine's run. -/
theorem core_run_next {s t : State} (h : step s = .next t) (k : Nat) : core.run (k + 1) s = core.run k t :=
  run_next (M := core) h k

end Sys2Proof.Machine
end

