-- ==== Sys2Proof/Laws/Memory.lean ====
section
/-! SUPPORT. The laws of the byte space `TIN`: a read after a write, and the canonical form kept by every operation. -/

namespace Sys2Proof.Machine

/-- A write in front of cells at higher addresses keeps the canonical form. -/
theorem cons_wf {m : Memory} (a : Nat) (b : Byte) (hm : m.wf) (ha : ∀ x ∈ m, a < x.1) :
    (Memory.cons a b m).wf := by
  unfold Memory.cons
  split
  · exact hm
  · rename_i hb
    refine ⟨List.pairwise_cons.2 ⟨fun x hx => ha x hx, hm.1⟩, fun x hx => ?_⟩
    rcases List.mem_cons.1 hx with rfl | hx
    · exact hb
    · exact hm.2 x hx

theorem mem_cons_addr {m : Memory} {a : Nat} {b : Byte} {x : Host.Cell}
    (hx : x ∈ Memory.cons a b m) : x.1 = a ∨ x ∈ m := by
  unfold Memory.cons at hx
  split at hx
  · exact .inr hx
  · rcases List.mem_cons.1 hx with rfl | hx
    · exact .inl rfl
    · exact .inr hx

theorem mem_write_addr {m : Memory} {a : Nat} {b : Byte} {x : Host.Cell}
    (hx : x ∈ m.write a b) : x.1 = a ∨ x ∈ m := by
  induction m with
  | nil => exact mem_cons_addr hx
  | cons y m ih =>
    obtain ⟨a', b'⟩ := y
    simp only [Memory.write] at hx
    split at hx
    · exact mem_cons_addr hx
    · split at hx
      · rcases mem_cons_addr hx with h | h
        · exact .inl h
        · exact .inr (List.mem_cons_of_mem _ h)
      · rcases List.mem_cons.1 hx with rfl | hx
        · exact .inr List.mem_cons_self
        · rcases ih hx with h | h
          · exact .inl h
          · exact .inr (List.mem_cons_of_mem _ h)

/-- Every write keeps the canonical form. -/
theorem write_wf {m : Memory} (a : Nat) (b : Byte) (hm : m.wf) : (m.write a b).wf := by
  induction m with
  | nil => exact cons_wf a b hm (by simp)
  | cons y m ih =>
    obtain ⟨a', b'⟩ := y
    obtain ⟨hp, hv⟩ := hm
    obtain ⟨h1, h2⟩ := List.pairwise_cons.1 hp
    have hm : Memory.wf m := ⟨h2, fun x hx => hv x (List.mem_cons_of_mem _ hx)⟩
    simp only [Memory.write]
    split
    · rename_i hlt
      refine cons_wf a b ⟨hp, hv⟩ fun x hx => ?_
      rcases List.mem_cons.1 hx with rfl | hx
      · exact hlt
      · exact hlt.trans (h1 x hx)
    · split
      · rename_i heq
        exact cons_wf a b hm fun x hx => heq ▸ h1 x hx
      · have := ih hm
        refine ⟨List.pairwise_cons.2 ⟨fun x hx => ?_, this.1⟩, fun x hx => ?_⟩
        · rcases mem_write_addr hx with h | h
          · simp only [h]; omega
          · exact h1 x h
        · rcases List.mem_cons.1 hx with rfl | hx
          · exact hv _ List.mem_cons_self
          · exact this.2 x hx

/-- A space with no cell at `a` reads there as nothing written. -/
theorem read_absent {m : Memory} {a : Nat} (h : ∀ x ∈ m, x.1 ≠ a) : m.read a = unlistedByte := by
  induction m with
  | nil => rfl
  | cons y m ih =>
    obtain ⟨a', b'⟩ := y
    simp only [Memory.read, if_neg (h _ List.mem_cons_self)]
    exact ih fun x hx => h x (List.mem_cons_of_mem _ hx)

theorem read_cons {m : Memory} (a a' : Nat) (b : Byte) (h : ∀ x ∈ m, x.1 ≠ a) :
    (Memory.cons a b m).read a' = if a = a' then b else m.read a' := by
  unfold Memory.cons
  split
  · rename_i hb
    split
    · rename_i e; subst e; rw [read_absent h, hb]
    · rfl
  · rfl

/-- A read after a write: the written byte at that address, and every other address as before. -/
theorem read_write {m : Memory} (hm : m.wf) (a a' : Nat) (b : Byte) :
    (m.write a b).read a' = if a = a' then b else m.read a' := by
  induction m with
  | nil => exact read_cons a a' b (by simp)
  | cons y m ih =>
    obtain ⟨x, v⟩ := y
    obtain ⟨hp, hv⟩ := hm
    obtain ⟨h1, h2⟩ := List.pairwise_cons.1 hp
    have hm : Memory.wf m := ⟨h2, fun x hx => hv x (List.mem_cons_of_mem _ hx)⟩
    simp only [Memory.write]
    split
    · rename_i hlt
      refine read_cons a a' b fun z hz => ?_
      rcases List.mem_cons.1 hz with rfl | hz
      · simp only; omega
      · have := h1 z hz; simp only at this; omega
    · split
      · rename_i heq; subst heq
        rw [read_cons a a' b fun z hz => by have := h1 z hz; simp only at this; omega]
        by_cases e : a = a' <;> simp [e, Memory.read]
      · rename_i hne
        by_cases e : x = a'
        · subst e; simp [Memory.read, hne]
        · simp only [Memory.read, if_neg e, ih hm]

/-- Every multi-byte write keeps the canonical form. -/
theorem memWrite_wf {m : Memory} (hm : m.wf) (a : Nat) (bs : List Byte) : (memWrite m a bs).wf := by
  induction bs generalizing m a with
  | nil => exact hm
  | cons b bs ih => exact ih (write_wf a b hm) _

/-- A read after a multi-byte write. -/
theorem read_memWrite {m : Memory} (hm : m.wf) (a a' : Nat) (bs : List Byte) :
    (memWrite m a bs).read a' = if a ≤ a' ∧ a' < a + bs.length then bs.getD (a' - a) 0 else m.read a' := by
  induction bs generalizing m a with
  | nil => simp [memWrite]
  | cons b bs ih =>
    simp only [memWrite, ih (write_wf a b hm), read_write hm, List.length_cons]
    rcases Nat.lt_trichotomy a a' with h | h | h
    · obtain ⟨k, rfl⟩ := Nat.exists_eq_add_of_lt h
      have e : a + k + 1 - a = k + 1 := by omega
      have e' : a + k + 1 - (a + 1) = k := by omega
      simp only [e, e', List.getD_cons_succ]
      by_cases hk : k < bs.length
      · rw [if_pos (by omega), if_pos (by omega)]
      · rw [if_neg (by omega), if_neg (by omega), if_neg (by omega)]
    · subst h; simp
    · rw [if_neg (by omega), if_neg (by omega), if_neg (by omega)]

theorem memOfBytes_wf (t : List Byte) : (memOfBytes t).wf := memWrite_wf ⟨.nil, by simp⟩ 0 t

/-- The space made of `t` reads as `t`. -/
theorem read_memOfBytes (t : List Byte) (a : Nat) : (memOfBytes t).read a = t.getD a 0 := by
  have h : Memory.wf [] := ⟨.nil, by simp⟩
  rw [memOfBytes, read_memWrite h]
  by_cases ha : a < t.length
  · simp [ha]
  · simp [ha, Memory.read, unlistedByte]

/-- Bytes `addr ..` of the space made of `t`, up to its end, are the rest of `t`. -/
theorem memRead_memOfBytes (t : List Byte) (addr n : Nat) (h : addr + n ≤ t.length) :
    memRead (memOfBytes t) addr n = (t.drop addr).take n := by
  apply List.ext_getElem
  · simp [memRead]; omega
  · intro i h1 h2
    simp only [memRead, List.length_map, List.length_range] at h1
    have ha : addr + i < t.length := by omega
    simp [memRead, read_memOfBytes, ha]

end Sys2Proof.Machine
end

