-- ==== Sys2Proof/Laws/PerInstr.lean ====
section
/-! SUPPORT. Per-token lemmas: family `EncodedShape`, the encoding of a well-formed token has the length of its class
(30_encoding.md R86) and a first byte of that class (R83), under either assignment of the exact tags. -/

namespace Sys2Proof.Laws.EncodedShape

open Sys2Proof Sys2Proof.Machine

/-- The first byte is of the token's class and the bytes are as many as the class has. -/
def Statement (i : Instr) : Prop :=
  i.wf = true → ∀ c : Config, c.Legal →
    ∃ b0 rest, encode c i = b0 :: rest ∧ classify c b0 = i.tokenClass ∧
      rest.length + 1 = tokenLength i.tokenClass

theorem rgb (r g b : Byte) : Statement (.rgb r g b) := fun _ c _ =>
  ⟨c.tagRgb, _, rfl, classify_tagRgb c, rfl⟩

theorem rgba (r g b a : Byte) : Statement (.rgba r g b a) := fun _ c hc =>
  ⟨c.tagRgba, _, rfl, classify_tagRgba hc, rfl⟩

theorem diff (dr dg db : Int) : Statement (.diff dr dg db) := fun hw c hc => by
  simp only [Instr.wf, inRange, Bool.and_eq_true, decide_eq_true_eq] at hw
  have h := u8_toNat_of_lt (x := 0x40 + 16 * (dr + 2) + 4 * (dg + 2) + (db + 2)) (by omega) (by omega)
  exact ⟨_, _, rfl, classify_diff hc (by omega) (by omega), rfl⟩

theorem luma (dg drdg dbdg : Int) : Statement (.luma dg drdg dbdg) := fun hw c hc => by
  simp only [Instr.wf, inRange, Bool.and_eq_true, decide_eq_true_eq] at hw
  have h := u8_toNat_of_lt (x := 0x80 + (dg + 32)) (by omega) (by omega)
  exact ⟨_, _, rfl, classify_luma hc (by omega) (by omega), rfl⟩

theorem run (n : Nat) : Statement (.run n) := fun hw c hc => by
  simp only [Instr.wf, Bool.and_eq_true, decide_eq_true_eq] at hw
  have h := u8_toNat_of_lt (x := 0xC0 + ((n : Int) - 1)) (by omega) (by omega)
  exact ⟨_, _, rfl, classify_run hc (by omega) (by omega), rfl⟩

theorem index (k : Fin 64) : Statement (.index k) := fun _ c hc => by
  have hk := k.isLt
  have h := u8_toNat_of_lt (x := (k.val : Int)) (by omega) (by omega)
  exact ⟨_, _, rfl, classify_index hc (by omega), rfl⟩

end Sys2Proof.Laws.EncodedShape
end

