-- ==== Sys2Proof/Laws/Step.lean ====
section
/-! SUPPORT. Everything one step can do, by who takes it, and the small lemmas of the schedule. -/

namespace Sys2Proof.Machine

/-- A pending command is what the step carries out. -/
theorem step_of_cmd {s : State} {x : HostCmd} {more : List Input} (h : s.inputs = .cmd x :: more) :
    step s = .next (hostCommand standardConfig x (s.setInputs more)) := by
  simp [step, stepWith, h]

/-- A token step always answers a next state, and touches DEC alone. -/
theorem decToken_frame (c : Config) (s : State) :
    ∃ t, decToken c s = .next t ∧ t.enc = s.enc ∧ t.frm = s.frm ∧ t.inputs = s.inputs := by
  rcases decToken_cases c s with ⟨i, px, -, -, -, -, -, h⟩ | ⟨-, h⟩ | ⟨i, -, -, h⟩ <;> exact ⟨_, h, rfl, rfl, rfl⟩

theorem setInputs_tail {s : State} (h : s.inputs = []) : s.setInputs s.inputs.tail = s := by
  rcases s with ⟨⟩
  simp_all [State.setInputs]

/-- Everything a step can do: a token step, nothing, a step of the framing layer, a command, or power-on reset. -/
theorem step_inv {s t : State} (h : step s = .next t) :
    (decEnabled s.dec = true ∧ decToken standardConfig (s.setInputs s.inputs.tail) = .next t) ∨
    t = s.setInputs s.inputs.tail ∨
    frmNext standardConfig (s.setInputs s.inputs.tail) = some t ∨
    (∃ x, t = hostCommand standardConfig x (s.setInputs s.inputs.tail)) ∨
    t = powerOnReset (s.setInputs s.inputs.tail) := by
  unfold step stepWith at h
  split at h
  · rename_i hi
    rw [setInputs_tail hi]
    unfold ownStep at h
    split at h
    · rename_i he; exact .inl ⟨he, h⟩
    · split at h
      · rename_i hn; cases h; exact .inr (.inr (.inl hn))
      · cases h
  · rename_i x rest hi; rw [hi]; cases h; exact .inr (.inr (.inr (.inl ⟨x, rfl⟩)))
  · rename_i rest hi; rw [hi]
    unfold decTurn at h
    split at h
    · rename_i he; exact .inl ⟨he, h⟩
    · cases h; exact .inr (.inl rfl)
  · rename_i rest hi; rw [hi]
    unfold frmTurn at h
    split at h
    · rename_i hn; cases h; exact .inr (.inr (.inl hn))
    · cases h; exact .inr (.inl rfl)
  · rename_i rest hi; rw [hi]; cases h; exact .inr (.inr (.inr (.inr rfl)))

theorem decEnabled_iff (d : Dec) : decEnabled d = true ↔ d.status = .run ∧ d.op < d.npix := by simp [decEnabled]

/-- When the host may start DEC or write its inputs. -/
theorem decFree_iff (s : State) :
    decFree s = true ↔ (∀ h, s.frm.phase ≠ .decoding h) ∧ s.dec.status ≠ .run := by
  simp [decFree, decOwned]; intro _; cases s.frm.phase <;> simp

theorem encOwned_iff (s : State) : encOwned s = false ↔ ∀ hb, s.frm.phase ≠ .encoding hb := by
  simp [encOwned]; cases s.frm.phase <;> simp

/-- One more token step. -/
theorem decSteps_next {c : Config} {m : Nat} {s t : State} (he : decEnabled s.dec = true)
    (h : decToken c s = .next t) : decSteps c (m + 1) s = decSteps c m t := by
  simp [decSteps, he, h]

/-- No more token steps. -/
theorem decSteps_end {c : Config} {m : Nat} {s : State} (he : decEnabled s.dec = false) : decSteps c m s = s := by
  cases m <;> simp [decSteps, he]

end Sys2Proof.Machine
end

