-- ==== Sys2Proof/Tests/Slice0.lean ====
section
/-! SUPPORT. The model's own tests: ill-formed terms that WellFormed refuses, words decoded against the spec's encodings,
single steps against the vectors of spec/95_test_vectors.md (every expected value is copied from there), and for every
statement with hypotheses a concrete case that meets them all. -/

open Sys2Proof Sys2Proof.Machine

namespace Sys2Proof.Tests

/-! ## Helpers -/

/-- Right after reset, DEC started on these bytes and this size. -/
def decState (tin : List Byte) (npix : Nat) : State := State.reset.setDec (decSetup tin npix State.reset.dec)

/-- ENC right after `start`. -/
def encReady : Enc := encStart State.reset.enc

/-- Right after reset, ENC started. -/
def encState : State := State.reset.setEnc encReady

/-- Right after reset, with one pending input. -/
def withCmd (x : HostCmd) (s : State) : State := s.setInputs [.cmd x]

/-- The outcome is a next state of which `f` says true. -/
def shows (o : Host.Outcome State Fault Refusal) (f : State → Bool) : Bool :=
  match o with
  | .next t    => f t
  | .fault _   => false
  | .refused _ => false

/-- One step shows the pixel written last, and the two indices. -/
def stepGives (s : State) (px : Pixel) (ip op : Nat) : Bool :=
  shows (step s) fun t => t.dec.pout.getLast? == some px && t.dec.ip == ip && t.dec.op == op && t.dec.prev == px

/-- One step fails with this cause and no output. -/
def stepFails (s : State) (k : Cause) : Bool :=
  shows (step s) fun t => t.dec.status == .fault && t.dec.cause == some k && t.dec.pout == []

/-- The state of V-ENC rows 1 to 12 and 14 to 17: (100,100,100,255) encoded from reset. -/
def encAfter100 : Enc := encPixel standardConfig ⟨100, 100, 100, 255⟩ encReady

/-- The bytes the next pixel step adds to the five already there. -/
def nextBytes (p : Pixel) : List Byte := (encPixel standardConfig p encAfter100).tout.drop 5

/-- `standardConfig` with the exact tags exchanged, the other legal setting. -/
def swappedConfig : Config := { standardConfig with tagRgb := 0xFF, tagRgba := 0xFE }

/-! ## WellFormed refuses each ill-formed operand (30_encoding.md R96) -/

theorem test_wf_accepts_bounds :
    (Instr.diff (-2) 1 (-2)).wf && (Instr.diff 1 (-2) 1).wf && (Instr.luma (-32) (-8) 7).wf &&
      (Instr.luma 31 7 (-8)).wf && (Instr.run 1).wf && (Instr.run 62).wf = true := by decide

theorem test_wf_refuses_diff_dr : (Instr.diff (-3) 0 0).wf = false ∧ (Instr.diff 2 0 0).wf = false := by decide
theorem test_wf_refuses_diff_dg : (Instr.diff 0 (-3) 0).wf = false ∧ (Instr.diff 0 2 0).wf = false := by decide
theorem test_wf_refuses_diff_db : (Instr.diff 0 0 (-3)).wf = false ∧ (Instr.diff 0 0 2).wf = false := by decide
theorem test_wf_refuses_luma_dg : (Instr.luma (-33) 0 0).wf = false ∧ (Instr.luma 32 0 0).wf = false := by decide
theorem test_wf_refuses_luma_drdg : (Instr.luma 0 (-9) 0).wf = false ∧ (Instr.luma 0 8 0).wf = false := by decide
theorem test_wf_refuses_luma_dbdg : (Instr.luma 0 0 (-9)).wf = false ∧ (Instr.luma 0 0 8).wf = false := by decide
theorem test_wf_refuses_run : (Instr.run 0).wf = false ∧ (Instr.run 63).wf = false := by decide

/-! ## Decoding: words written out from the encodings (30_encoding.md R87 to R92, V-CLASS, V-ENC) -/

/-- RGB: the tag, then r, g, b. V-ENC-9's word. -/
theorem test_decode_rgb :
    decode standardConfig [0b11111110, 0x84, 0x85, 0x86] = .ok (.rgb 0x84 0x85 0x86, []) := by decide

/-- RGBA: the tag, then r, g, b, a. -/
theorem test_decode_rgba :
    decode standardConfig [0b11111111, 0x64, 0x65, 0x66, 0x80] = .ok (.rgba 0x64 0x65 0x66 0x80, []) := by decide

/-- DIFF: 01, fr, fg, fb, two bits each, bias 2. V-ENC-3's word 4E: −2, 1, 0. -/
theorem test_decode_diff : decode standardConfig [0b01001110] = .ok (.diff (-2) 1 0, []) := by decide

/-- LUMA: 10 and six bits, then two nibbles. V-ENC-11's word A0 0F: 0, −8, 7. -/
theorem test_decode_luma : decode standardConfig [0b10100000, 0b00001111] = .ok (.luma 0 (-8) 7, []) := by decide

/-- RUN: 11 and six bits, bias 1. V-RUN's longest, FD: 62. -/
theorem test_decode_run : decode standardConfig [0b11111101] = .ok (.run 62, []) := by decide

/-- INDEX: 00 and six bits. V-CLASS's 3F: 63. -/
theorem test_decode_index : decode standardConfig [0b00111111] = .ok (.index 63, []) := by decide

/-- V-CLASS, the bounds of each class. -/
theorem test_decode_class_bounds :
    ([0x00, 0x3F, 0x40, 0x7F, 0x80, 0xBF, 0xC0, 0xFD, 0xFE, 0xFF].map fun b => classify standardConfig b) =
      [.index, .index, .diff, .diff, .luma, .luma, .run, .run, .rgb, .rgba] := by decide

/-- Table numbering: byte 0 is bits 7..0 (the first byte), byte 1 is bits 15..8, and so on. -/
theorem test_decodeTableWord :
    decodeTableWord 32 0x3264C8FE = some (.rgb 0xC8 0x64 0x32) ∧
      decodeTableWord 40 0xFF1E140AFF = some (.rgba 0x0A 0x14 0x1E 0xFF) ∧
      decodeTableWord 16 0x85AA = some (.luma 10 0 (-3)) ∧ decodeTableWord 8 0x77 = some (.diff 1 (-1) 1) := by decide

/-! ## One token step each (V-DEC, P6) -/

/-- V-DEC-13. -/
theorem test_rgb_keeps_alpha : stepGives (decState [0xFE, 9, 8, 7] 1) ⟨9, 8, 7, 0⟩ 4 1 = true := by decide +kernel

/-- V-DEC-12, its first token. -/
theorem test_rgba : stepGives (decState [0xFF, 1, 2, 3, 0x4D, 0xFE, 9, 8, 7] 2) ⟨1, 2, 3, 77⟩ 5 1 = true := by
  decide +kernel

/-- V-DEC-1. -/
theorem test_diff_wraps : stepGives (decState [0x40] 1) ⟨254, 254, 254, 0⟩ 1 1 = true := by decide +kernel

/-- V-DEC-4 and V-DEC-5. -/
theorem test_luma_bounds :
    stepGives (decState [0x80, 0x00] 1) ⟨216, 224, 216, 0⟩ 2 1 &&
      stepGives (decState [0xBF, 0xFF] 1) ⟨38, 31, 38, 0⟩ 2 1 = true := by decide +kernel

/-- V-DEC-10. -/
theorem test_run_as_first_token :
    shows (step (decState [0xC2] 3)) (fun t =>
      t.dec.pout == List.replicate 3 ⟨0, 0, 0, 0⟩ && t.dec.op == 3 && t.dec.status == .done) = true := by decide +kernel

/-- P6: the third pixel tells whether INDEX updates the cache. -/
theorem test_index_updates_the_cache :
    decodeTokens standardConfig [0xFE, 0x40, 0x00, 0x00, 0x05, 0x00] 3 =
      some (.ok [⟨64, 0, 0, 0⟩, ⟨0, 0, 0, 0⟩, ⟨0, 0, 0, 0⟩]) := by decide +kernel

/-- V-DEC-9. -/
theorem test_index_unwritten : stepGives (decState [0x3F] 1) ⟨0, 0, 0, 0⟩ 1 1 = true := by decide +kernel

/-- V-FLT-1 to V-FLT-4 and V-FLT-6. -/
theorem test_failures :
    stepFails (decState [] 1) .truncated && stepFails (decState [0xFE, 1, 2] 1) .truncated &&
      stepFails (decState [0xFF, 1, 2, 3] 1) .truncated && stepFails (decState [0xA0] 1) .truncated &&
      stepFails (decState [0xC1] 1) .runOverrun = true := by decide +kernel

/-- V-DEC-16 and V-DEC-17: bytes left over, and no pixel asked for. -/
theorem test_run_ends_when_full :
    decodeTokens standardConfig [0x6A, 0x6A, 0x6A] 1 = some (.ok [⟨0, 0, 0, 0⟩]) ∧
      decodeTokens standardConfig [0xFF] 0 = some (.ok []) := by decide +kernel

/-- `withFetchWord` from State.reset: the very next step runs the word (V-DEC-2's byte). -/
theorem test_withFetchWord : stepGives (State.reset.withFetchWord 8 0x7F) ⟨1, 1, 1, 0⟩ 1 1 = true := by decide +kernel

/-! ## The encoder's side of each token (V-ENC) -/

/-- V-ENC-9 and V-ENC-12. -/
theorem test_enc_rgb :
    nextBytes ⟨132, 132, 132, 255⟩ = [0xFE, 0x84, 0x84, 0x84] ∧
      nextBytes ⟨108, 100, 100, 255⟩ = [0xFE, 0x6C, 0x64, 0x64] := by decide +kernel

/-- V-ENC-17. -/
theorem test_enc_rgba : nextBytes ⟨100, 100, 100, 254⟩ = [0xFF, 0x64, 0x64, 0x64, 0xFE] := by decide +kernel

/-- V-ENC-2 and V-ENC-3. -/
theorem test_enc_diff :
    nextBytes ⟨101, 101, 101, 255⟩ = [0x7F] ∧ nextBytes ⟨98, 101, 100, 255⟩ = [0x4E] := by decide +kernel

/-- V-ENC-11 and V-ENC-16. -/
theorem test_enc_luma :
    nextBytes ⟨92, 100, 107, 255⟩ = [0xA0, 0x0F] ∧ nextBytes ⟨60, 68, 60, 255⟩ = [0x80, 0x00] := by decide +kernel

/-- V-ENC-23: INDEX before DIFF. -/
theorem test_enc_index :
    encodeTokens standardConfig [⟨100, 100, 100, 255⟩, ⟨101, 99, 101, 255⟩, ⟨100, 100, 100, 255⟩] =
      [0xFF, 0x64, 0x64, 0x64, 0xFF, 0x77, 0x11] := by decide +kernel

/-- V-ENC-27: the flush before a differing pixel. -/
theorem test_enc_run :
    encodeTokens standardConfig [⟨7, 7, 7, 0⟩, ⟨7, 7, 7, 0⟩, ⟨7, 7, 7, 0⟩, ⟨7, 7, 7, 0⟩, ⟨8, 8, 8, 0⟩] =
      [0xA7, 0x88, 0xC2, 0x7F] := by decide +kernel

/-! ## Header and framing (V-HDR, V-FILE) -/

/-- V-HDR-2, and V-HDR-7 of it. -/
theorem test_header_big_endian :
    (encodeHeader standardConfig ⟨0x12345678, 0x9ABCDEF0, 3, 1⟩).toOption =
        some [0x71, 0x6F, 0x69, 0x66, 0x12, 0x34, 0x56, 0x78, 0x9A, 0xBC, 0xDE, 0xF0, 3, 1] ∧
      (decodeHeader standardConfig [0x71, 0x6F, 0x69, 0x66, 0x12, 0x34, 0x56, 0x78, 0x9A, 0xBC, 0xDE, 0xF0, 3, 1]).toOption =
        some ⟨0x12345678, 0x9ABCDEF0, 3, 1⟩ := by decide +kernel

/-- V-FILE-8. -/
theorem test_file_truncated :
    decodeFile standardConfig
      [0x71, 0x6F, 0x69, 0x66, 0, 0, 0, 2, 0, 0, 0, 1, 4, 0, 0, 0, 0, 0, 0, 0, 0, 1] =
      some (.error .truncated) := by decide +kernel

/-- V-FILE-12: a byte left over in a file. -/
theorem test_file_left_over :
    decodeFile standardConfig
      [0x71, 0x6F, 0x69, 0x66, 0, 0, 0, 1, 0, 0, 0, 1, 4, 0, 0xFF, 0x0A, 0x14, 0x1E, 0xFF, 0xC1,
        0, 0, 0, 0, 0, 0, 0, 1] =
      some (.ok ⟨⟨1, 1, 4, 0⟩, [⟨10, 20, 30, 255⟩]⟩) := by decide +kernel

/-! ## Witnesses: each statement's hypotheses are met -/

theorem decState_running (t : List Byte) (n : Nat) : DecRunning (decState t (n + 1)) := ⟨rfl, rfl, Nat.succ_pos n⟩

theorem witness_legal_configs : standardConfig.Legal ∧ swappedConfig.Legal := by decide

theorem witness_DecodeOfEncodeIsTheToken :
    standardConfig.Legal ∧ (Instr.luma (-32) 7 (-8)).wf = true ∧
      decode standardConfig (encode standardConfig (.luma (-32) 7 (-8)) ++ [0xFE]) =
        .ok (.luma (-32) 7 (-8), [0xFE]) := by decide

theorem witness_EncodeOfDecodeIsTheBytes :
    standardConfig.Legal ∧ decode standardConfig [0xFD, 0x01] = .ok (.run 62, [0x01]) := by decide

theorem witness_FirstByteMap : swappedConfig.Legal ∧ 4 ≤ [(1 : Byte), 2, 3, 4].length := by decide

theorem witness_TokenLengths :
    decode standardConfig [0xAA, 0x85] = .ok (.luma 10 0 (-3), []) ∧
      decode standardConfig [0xAA, 0x00, 0x11] = .ok (.luma 10 (-8) (-8), [0x11]) := by decide

/-- Both ends of each field. -/
theorem witness_BiasedFields :
    standardConfig.Legal ∧
      decode standardConfig [u8 (0x40 + 16 * 3 + 4 * 0 + 3)] = .ok (.diff 1 (-2) 1, []) ∧
      decode standardConfig [u8 (0x80 + 63), u8 (16 * 0 + 15)] = .ok (.luma 31 (-8) 7, []) ∧
      decode standardConfig [u8 (0xC0 + 61)] = .ok (.run 62, []) := by decide

/-- Green deltas at both ends; at the second the difference is in the range of the last clause. -/
theorem witness_LumaSecondDifferencesMayWrap :
    (-32 ≤ delta 224 0 ∧ delta 224 0 ≤ 31 ∧ ¬(delta 100 0 - delta 224 0 ≤ 7)) ∧
      (-32 ≤ delta 31 0 ∧ delta 31 0 ≤ 31 ∧ -8 ≤ delta 38 0 - delta 31 0 ∧ delta 38 0 - delta 31 0 ≤ 7) := by decide

/-- The whole token ends the stream; the last operand byte is missing; every operand byte is missing. -/
theorem witness_RgbKeepsThePreviousAlpha :
    (decState [] 1).dec.op + 1 ≤ (decState [] 1).dec.npix ∧
      (DecRunning (decState [0xFE, 1, 2, 3] 1) ∧ (decState [0xFE, 1, 2, 3] 1).dec.tin.read 0 = standardConfig.tagRgb ∧
        0 + 4 ≤ (decState [0xFE, 1, 2, 3] 1).dec.tlen) ∧
      (DecRunning (decState [0xFE, 1, 2] 1) ∧ (decState [0xFE, 1, 2] 1).dec.tin.read 0 = standardConfig.tagRgb ∧
        0 < (decState [0xFE, 1, 2] 1).dec.tlen ∧ (decState [0xFE, 1, 2] 1).dec.tlen < 0 + 4) ∧
      (DecRunning (decState [0xFE] 1) ∧ (decState [0xFE] 1).dec.tin.read 0 = standardConfig.tagRgb ∧
        0 < (decState [0xFE] 1).dec.tlen ∧ (decState [0xFE] 1).dec.tlen < 0 + 4) :=
  ⟨by decide, ⟨decState_running _ _, by decide, by decide⟩, ⟨decState_running _ _, by decide, by decide, by decide⟩,
    ⟨decState_running _ _, by decide, by decide, by decide⟩⟩

theorem witness_RgbaTakesAllFourChannels :
    (decState [] 1).dec.op + 1 ≤ (decState [] 1).dec.npix ∧
      (DecRunning (decState [0xFF, 1, 2, 3, 4] 1) ∧
        (decState [0xFF, 1, 2, 3, 4] 1).dec.tin.read 0 = standardConfig.tagRgba ∧
        0 + 5 ≤ (decState [0xFF, 1, 2, 3, 4] 1).dec.tlen) ∧
      (DecRunning (decState [0xFF, 1, 2, 3] 1) ∧ (decState [0xFF, 1, 2, 3] 1).dec.tin.read 0 = standardConfig.tagRgba ∧
        0 < (decState [0xFF, 1, 2, 3] 1).dec.tlen ∧ (decState [0xFF, 1, 2, 3] 1).dec.tlen < 0 + 5) :=
  ⟨by decide, ⟨decState_running _ _, by decide, by decide⟩, ⟨decState_running _ _, by decide, by decide, by decide⟩⟩

/-- The first and the last DIFF byte. -/
theorem witness_DiffAppliesThreeDeltas :
    (decState [] 1).dec.op + 1 ≤ (decState [] 1).dec.npix ∧
      (DecRunning (decState [0x40] 1) ∧ 0 < (decState [0x40] 1).dec.tlen ∧ (decState [0x40] 1).dec.tin.read 0 = 0x40 ∧
        field 0x40 7 6 = 0b01) ∧
      (DecRunning (decState [0x7F] 1) ∧ 0 < (decState [0x7F] 1).dec.tlen ∧ (decState [0x7F] 1).dec.tin.read 0 = 0x7F ∧
        field 0x7F 7 6 = 0b01) :=
  ⟨by decide, ⟨decState_running _ _, by decide, by decide, by decide⟩,
    ⟨decState_running _ _, by decide, by decide, by decide⟩⟩

/-- The last LUMA byte with its second byte, and the first without it. -/
theorem witness_LumaAppliesDeltasRelativeToGreen :
    (decState [] 1).dec.op + 1 ≤ (decState [] 1).dec.npix ∧
      (DecRunning (decState [0xBF, 0xFF] 1) ∧ 0 + 2 ≤ (decState [0xBF, 0xFF] 1).dec.tlen ∧
        (decState [0xBF, 0xFF] 1).dec.tin.read 0 = 0xBF ∧ (decState [0xBF, 0xFF] 1).dec.tin.read (0 + 1) = 0xFF ∧
        field 0xBF 7 6 = 0b10) ∧
      (DecRunning (decState [0x80] 1) ∧ field ((decState [0x80] 1).dec.tin.read 0) 7 6 = 0b10 ∧
        0 + 1 = (decState [0x80] 1).dec.tlen) :=
  ⟨by decide, ⟨decState_running _ _, by decide, by decide, by decide, by decide⟩,
    ⟨decState_running _ _, by decide, by decide⟩⟩

/-- A run that fills exactly, and the same run one slot short. -/
theorem witness_RunRepeatsThePreviousPixel :
    ((decState [] 62).dec.op + 62 ≤ (decState [] 62).dec.npix ∧ (decState [] 62).dec.PrevHeld) ∧
      (decState [] 61).dec.npix < (decState [] 61).dec.op + 62 ∧
      (DecRunning (decState [0xFD] 62) ∧ 0 < (decState [0xFD] 62).dec.tlen ∧ (decState [0xFD] 62).dec.tin.read 0 = 0xFD ∧
        field 0xFD 7 6 = 0b11 ∧ (0xFD : Byte) ≠ 0xFE ∧ (0xFD : Byte) ≠ 0xFF ∧
        0 + (field 0xFD 5 0 + 1) ≤ (decState [0xFD] 62).dec.npix) ∧
      (DecRunning (decState [0xFD] 61) ∧ 0 < (decState [0xFD] 61).dec.tlen ∧ (decState [0xFD] 61).dec.tin.read 0 = 0xFD ∧
        (decState [0xFD] 61).dec.npix < 0 + (field 0xFD 5 0 + 1)) :=
  ⟨⟨by decide, by unfold History.PrevHeld; decide +kernel⟩, by decide,
    ⟨decState_running _ _, by decide, by decide, by decide, by decide, by decide, by decide⟩,
    ⟨decState_running _ _, by decide, by decide, by decide⟩⟩

theorem witness_IndexCopiesItsSlot :
    (decState [] 1).dec.op + 1 ≤ (decState [] 1).dec.npix ∧
      (DecRunning (decState [0x3F] 1) ∧ 0 < (decState [0x3F] 1).dec.tlen ∧
        ((decState [0x3F] 1).dec.tin.read 0).toNat = (63 : Fin 64).val) :=
  ⟨by decide, ⟨decState_running _ _, by decide, by decide⟩⟩

theorem witness_IndexOfAnUnwrittenSlotClearsSlotZero :
    (decState [] 1).dec.cache[(5 : Fin 64)] = ⟨0, 0, 0, 0⟩ ∧ (decState [] 1).dec.op + 1 ≤ (decState [] 1).dec.npix := by
  decide +kernel

/-- RUN 2 into one slot, and `exec` of a one-pixel token where the output is full already. -/
theorem witness_TokensThatDoNotFitFail :
    (decState [] 1).dec.npix < (decState [] 1).dec.op + tokenPixels (.run 2) ∧
      (decState [] 0).dec.npix < (decState [] 0).dec.op + tokenPixels (.rgb 1 2 3) ∧
      (decState [] 0).dec.npix < (decState [] 0).dec.op + tokenPixels (.index 63) := by decide

theorem witness_StepRunsTheDecodedToken :
    DecRunning (decState [0xAA, 0x85] 1) ∧
      decode standardConfig (memRead (decState [0xAA, 0x85] 1).dec.tin 0 ((decState [0xAA, 0x85] 1).dec.tlen - 0)) =
        .ok (.luma 10 0 (-3), []) :=
  ⟨decState_running _ _, by decide⟩

/-- No byte at all, and an operand byte missing. -/
theorem witness_StepFailsWhereTheStreamEnds :
    (DecRunning (decState [] 1) ∧ decode standardConfig (memRead (decState [] 1).dec.tin 0 0) = .error .noByte) ∧
      (DecRunning (decState [0xAA] 1) ∧
        decode standardConfig (memRead (decState [0xAA] 1).dec.tin 0 1) = .error (.operandsMissing .luma)) :=
  ⟨⟨decState_running _ _, by decide⟩, ⟨decState_running _ _, by decide⟩⟩

/-- The framing layer returns the image of a `Decode` whose DEC run is DONE. -/
def decodeDone : State :=
  { decState [0xFF] 0 with frm := { State.reset.frm with status := .run, phase := .decoding ⟨0, 0, 4, 0⟩ } }

theorem witness_NoTokenStepAfterTheEnd :
    decodeDone.inputs = [] ∧ (decodeDone.dec.status ≠ .run ∨ decodeDone.dec.npix ≤ decodeDone.dec.op) ∧
      shows (step decodeDone) (fun t => t.frm.status == .done) = true ∧
      (decodeDone.setInputs [.decTurn]).inputs = [.decTurn] ∧
      (decodeDone.setInputs [.decTurn]).dec.status ≠ .run := by decide +kernel

/-- `Encode` in progress, holding ENC. -/
def encoding : State :=
  { encState with frm := { State.reset.frm with status := .run, phase := .encoding [] } }

/-- With no pixel asked for, and with one. -/
theorem witness_DecStartSetsTheResetValues :
    (State.reset.dec.status ≠ .run ∧ (∀ h, State.reset.frm.phase ≠ .decoding h) ∧ State.reset.dec.npix = 0) ∧
      shows (step (withCmd .decStart State.reset)) (fun t => t.dec.status == .done) = true ∧
      shows (step (withCmd .decStart (State.reset.setDec { State.reset.dec with npix := 1 })))
        (fun t => t.dec.status == .run) = true :=
  ⟨⟨by decide, (fun _ h => nomatch h), rfl⟩, by decide +kernel, by decide +kernel⟩

theorem witness_EncStartSetsTheResetValues :
    (withCmd .encStart State.reset).inputs = [.cmd .encStart] ∧ State.reset.enc.status ≠ .run ∧
      ∀ hb, State.reset.frm.phase ≠ .encoding hb :=
  ⟨rfl, by decide, (fun _ h => nomatch h)⟩

/-- One case of each clause: outside a run, during one, while the framing layer holds the unit. -/
theorem witness_CommandsOutOfOrderHaveNoEffect :
    ((withCmd .encFinish State.reset).inputs = [.cmd .encFinish] ∧ State.reset.enc.status ≠ .run) ∧
      encState.enc.status = .run ∧ (decState [0x00] 1).dec.status = .run ∧
      encoding.frm.status = .run ∧ (∃ hb, encoding.frm.phase = .encoding hb) ∧
      decodeDone.dec.status ≠ .run ∧ (∃ h, decodeDone.frm.phase = .decoding h) :=
  ⟨by decide, rfl, rfl, rfl, ⟨_, rfl⟩, by decide, ⟨_, rfl⟩⟩

/-- No pixel pending, and a pixel that differs from `prev`. -/
theorem witness_RepeatedPixelsMakeRunTokens :
    encAfter100.run = 0 ∧ (⟨101, 99, 101, 255⟩ : Pixel) ≠ encAfter100.prev := by decide +kernel

theorem witness_HostWritesTakeEffect :
    State.reset.dec.status ≠ .run ∧ (∀ h, State.reset.frm.phase ≠ .decoding h) ∧ State.reset.dec.tin.wf ∧
      State.reset.frm.status ≠ .run ∧
      shows (step (withCmd (.writeTin 7 [0xAB, 0x00]) State.reset)) (fun t => t.dec.tin == [(7, 0xAB)]) = true :=
  ⟨by decide, (fun _ h => nomatch h), by decide, by decide, by decide +kernel⟩

/-- For the push, `finish` and every statement about a command to ENC in a run. -/
theorem witness_PushTakesOnePixelStep :
    (withCmd (.encPush ⟨1, 1, 1, 0⟩) encState).inputs = [.cmd (.encPush ⟨1, 1, 1, 0⟩)] ∧ encState.enc.status = .run ∧
      ∀ hb, encState.frm.phase ≠ .encoding hb :=
  ⟨rfl, rfl, (fun _ h => nomatch h)⟩

theorem witness_FinishFlushesTheRun :
    (withCmd .encFinish encState).inputs = [.cmd .encFinish] ∧ encState.enc.status = .run ∧
      ∀ hb, encState.frm.phase ≠ .encoding hb :=
  ⟨rfl, rfl, (fun _ h => nomatch h)⟩

theorem witness_EncCountsARepeatedPixel :
    encReady.run + 1 ≠ 62 ∧ ({ encReady with run := 61 } : Enc).run + 1 = 62 := by decide

theorem witness_EncEmitsIndex :
    (⟨0, 0, 0, 0⟩ : Pixel) ≠ encAfter100.prev ∧
      encAfter100.cache[pixelHash ⟨0, 0, 0, 0⟩] = ⟨0, 0, 0, 0⟩ := by decide +kernel

/-- V-ENC-1 and V-ENC-2: both bounds. -/
theorem witness_EncEmitsDiff :
    ((⟨98, 98, 98, 255⟩ : Pixel) ≠ encAfter100.prev ∧ encAfter100.cache[pixelHash ⟨98, 98, 98, 255⟩] ≠ ⟨98, 98, 98, 255⟩ ∧
        255 = encAfter100.prev.a ∧ delta 98 encAfter100.prev.r = -2) ∧
      ((⟨101, 101, 101, 255⟩ : Pixel) ≠ encAfter100.prev ∧
        encAfter100.cache[pixelHash ⟨101, 101, 101, 255⟩] ≠ ⟨101, 101, 101, 255⟩ ∧
        delta 101 encAfter100.prev.r = 1) := by decide +kernel

/-- V-ENC-15: the largest LUMA. -/
theorem witness_EncEmitsLuma :
    (⟨138, 131, 138, 255⟩ : Pixel) ≠ encAfter100.prev ∧
      encAfter100.cache[pixelHash ⟨138, 131, 138, 255⟩] ≠ ⟨138, 131, 138, 255⟩ ∧ 255 = encAfter100.prev.a ∧
      delta 131 encAfter100.prev.g = 31 ∧ delta 138 encAfter100.prev.r = 31 + 7 := by decide +kernel

/-- V-ENC-9: just outside LUMA. -/
theorem witness_EncEmitsRgb :
    (⟨132, 132, 132, 255⟩ : Pixel) ≠ encAfter100.prev ∧
      encAfter100.cache[pixelHash ⟨132, 132, 132, 255⟩] ≠ ⟨132, 132, 132, 255⟩ ∧ 255 = encAfter100.prev.a ∧
      delta 132 encAfter100.prev.g = 32 := by decide +kernel

/-- V-ENC-17. -/
theorem witness_EncEmitsRgba :
    (⟨100, 100, 100, 254⟩ : Pixel) ≠ encAfter100.prev ∧
      encAfter100.cache[pixelHash ⟨100, 100, 100, 254⟩] ≠ ⟨100, 100, 100, 254⟩ ∧
      (254 : Byte) ≠ encAfter100.prev.a := by decide +kernel

theorem witness_EncNeverFails :
    encState.enc.status ≠ .fault ∧
      shows (step (withCmd .encFinish encState)) (fun t => t.enc.status == .done) = true := by decide +kernel

theorem witness_EncodeHeaderLayout :
    ((4 : Byte) = 3 ∨ (4 : Byte) = 4) ∧ ((1 : Byte) = 0 ∨ (1 : Byte) = 1) ∧ ¬((2 : Byte) = 0 ∨ (2 : Byte) = 1) ∧
      ¬((5 : Byte) = 3 ∨ (5 : Byte) = 4) := by decide

theorem witness_HeaderRoundTrip : standardConfig.magic.length = 4 := by decide

/-- V-HDR-8, 9, 10, 11, 12: one for each clause. -/
theorem witness_DecodeHeaderFailsInOrder :
    (List.replicate 13 (0 : Byte)).length ≠ 14 ∧ standardConfig.magic ≠ [0x71, 0x6F, 0x69, 0x67] ∧
      standardConfig.magic = [0x71, 0x6F, 0x69, 0x66] ∧ ¬((5 : Byte) = 3 ∨ (5 : Byte) = 4) ∧
      ¬((2 : Byte) = 0 ∨ (2 : Byte) = 1) ∧ ([0, 0, 0, 0] : List Byte) = [0, 0, 0, 0] := by decide

/-- V-FILE-3, V-FILE-4, and a legal geometry with an illegal channel count. -/
theorem witness_EncodeFailsInOrder :
    (0 : BitVec 32).toNat * (5 : BitVec 32).toNat = 0 ∧ 3 ≠ (2 : BitVec 32).toNat * (2 : BitVec 32).toNat ∧
      ([⟨0, 0, 0, 0⟩] : List Pixel).length = (1 : BitVec 32).toNat * (1 : BitVec 32).toNat ∧
      encodeHeader standardConfig ⟨1, 1, 5, 0⟩ = .error .badChannels :=
  ⟨by decide, by decide, by decide, rfl⟩

theorem witness_UnreadBytesAreIgnored :
    decodeTokens standardConfig [0x6A] 1 = some (.ok [⟨0, 0, 0, 0⟩]) := by decide +kernel

theorem witness_FileRoundTrip :
    standardConfig.Legal ∧
      ([⟨0, 0, 0, 0⟩] : List Pixel).length = (1 : BitVec 32).toNat * (1 : BitVec 32).toNat ∧
      ([⟨0, 0, 0, 0⟩] : List Pixel) ≠ [] ∧ ((3 : Byte) = 3 ∨ (3 : Byte) = 4) ∧ ((1 : Byte) = 0 ∨ (1 : Byte) = 1) := by
  decide

/-- For `Decode` and `Encode` given to the machine: State.reset takes both. -/
theorem witness_MachineDecodeIsDecode : State.reset.frm.status ≠ .run ∧ State.reset.dec.status ≠ .run := by decide

theorem witness_MachineEncodeIsEncode : State.reset.frm.status ≠ .run ∧ State.reset.enc.status ≠ .run := by decide

theorem witness_MachineDecRunIsDecodeTokens :
    State.reset.dec.status ≠ .run ∧ (∀ h, State.reset.frm.phase ≠ .decoding h) ∧ State.reset.dec.tin.wf :=
  ⟨by decide, (fun _ h => nomatch h), by decide⟩

theorem witness_MachineEncRunIsEncodeTokens :
    State.reset.enc.status ≠ .run ∧ ∀ hb, State.reset.frm.phase ≠ .encoding hb :=
  ⟨by decide, (fun _ h => nomatch h)⟩

theorem slots_of_init (k : Fin 64) : History.init.cache[k] = cacheInit := by
  simp [History.init]

/-- DEC in a run meets the invariant, and its next step answers a next state. -/
theorem witness_StepKeepsTheInvariant :
    (decState [0x40] 1).Inv ∧ shows (step (decState [0x40] 1)) (fun t => t.dec.status == .done) = true := by
  refine ⟨⟨⟨by decide, ?_, ?_, ?_, ?_, ?_⟩, ⟨by decide, by decide, ?_, ?_, by decide, by decide, by decide, by decide⟩,
    ⟨by decide, by decide, by decide⟩, (fun _ h => nomatch h), (fun _ h => nomatch h)⟩, by decide +kernel⟩
  · intro h; exact absurd h (by decide)
  · intro h; exact absurd h (by decide)
  · intro h; exact absurd h (by decide)
  · intro h; exact absurd h (by decide)
  · intro h; exact absurd h (by decide)
  · intro _ k; exact .inl (slots_of_init k)
  · intro _; exact slots_of_init _

theorem witness_PowerOnResetIdlesEveryUnit :
    (encState.setInputs [.powerOn]).inputs = [.powerOn] ∧
      shows (step (encState.setInputs [.powerOn])) (fun t => t.enc.status == .idle && t.inputs == []) = true := by
  decide +kernel

theorem witness_ResultsExistOnlyAtTheEnd :
    State.reset.dec.status = .idle ∧ (decState [] 1).dec.status = .run ∧ (decState [] 0).dec.status = .done ∧
      (raise .dec .truncated State.reset).dec.status = .fault ∧
      (raise .dec .truncated State.reset).dec.cause = some .truncated :=
  ⟨rfl, rfl, rfl, rfl, rfl⟩

end Sys2Proof.Tests
end

section
/-! Proofs of the statements on 20_memory.md: the header's integers. -/

namespace Sys2Proof.Proofs.Memory

open Sys2Proof Sys2Proof.Machine

/-- R52, with its bit positions: byte `j` of `BE32` is the field that starts at bit `24 - 8 j`. -/
theorem be32_eq_extractLsb (v : BitVec 32) :
    be32 v = [v.extractLsb' 24 8, v.extractLsb' 16 8, v.extractLsb' 8 8, v.extractLsb' 0 8] := by
  simp [be32, BitVec.extractLsb', Nat.shiftRight_eq_div_pow]

/-- `unBE32` undoes `BE32`: the four fields are the base-256 digits of the number. -/
theorem unBe32_extractLsb (v : BitVec 32) :
    unBe32 (v.extractLsb' 24 8) (v.extractLsb' 16 8) (v.extractLsb' 8 8) (v.extractLsb' 0 8) = v := by
  apply BitVec.eq_of_toNat_eq
  have hv := v.isLt
  simp only [unBe32_toNat, BitVec.extractLsb'_toNat, Nat.shiftRight_eq_div_pow]
  omega

/-- Settles O12: the bytes by their bit positions, the value of `unBE32`, and the inverse. -/
theorem headerIntegersAreBigEndian : Obligations.HeaderIntegersAreBigEndian := by
  unfold Obligations.HeaderIntegersAreBigEndian
  exact ⟨fun v => ⟨_, _, _, _, be32_eq_extractLsb v, rfl, rfl, rfl, rfl, unBe32_extractLsb v⟩, unBe32_toNat⟩

end Sys2Proof.Proofs.Memory
end

section
/-! Proofs of the statements on 30_encoding.md: the length of a token. -/

namespace Sys2Proof.Proofs.Encoding

open Sys2Proof Sys2Proof.Machine

/-- The number of bytes a token takes is read off its first byte (R86). -/
theorem decode_consumed {c : Config} {b0 : Byte} {rest rest' : List Byte} {i : Instr}
    (h : decode c (b0 :: rest) = .ok (i, rest')) :
    (b0 :: rest).length - rest'.length = tokenLength (classify c b0) := by
  rw [decode_length h, decode_class h, Nat.add_sub_cancel]

/-- Settles O5: the six lengths token by token, and both byte counts as the length of the first byte's class. -/
theorem tokenLengths : Obligations.TokenLengths := by
  unfold Obligations.TokenLengths
  intro c b0 rest rest' i h
  refine ⟨?_, fun rest₂ rest₂' i₂ h₂ => (decode_consumed h₂).trans (decode_consumed h).symm⟩
  rw [decode_length h, Nat.add_comm]
  cases i <;> rfl

end Sys2Proof.Proofs.Encoding
end

section
/-! Proofs of the statements on 40_hash_and_shared_update.md: the hash and the shared update. -/

namespace Sys2Proof.Proofs.HashAndUpdate

open Sys2Proof Sys2Proof.Machine

/-- Settles O7: the one reduction of the sum is `hash_val`; R120's example is evaluated. -/
theorem hashFormula : Obligations.HashFormula := by
  unfold Obligations.HashFormula
  constructor
  · intro p
    rw [hash_val, hashSum]
  · decide

/-- Settles O11: an update is a store of the pixel, whose slot is `store_slot` and whose frame is `store_other`,
followed by the write of `prev`. -/
theorem updateWritesOneSlotAndPrev : Obligations.UpdateWritesOneSlotAndPrev := by
  unfold Obligations.UpdateWritesOneSlotAndPrev
  intro h px
  rw [update_cache]
  exact ⟨update_prev h px, store_slot h px, store_other h px⟩

end Sys2Proof.Proofs.HashAndUpdate
end

section
/-! Proofs of the statements on 41_header_codec.md: the layout of a header, and the order of the tests. -/

namespace Sys2Proof.Proofs.HeaderCodec

open Sys2Proof Sys2Proof.Machine

/-- `CH_LEGAL`, tested as a Bool by the codec (00_scope.md R5). -/
theorem channelsLegal_iff (x : Byte) : channelsLegal x = true ↔ x = 3 ∨ x = 4 := by
  simp [channelsLegal]

/-- `CS_LEGAL`, likewise (00_scope.md R5). -/
theorem colorspaceLegal_iff (x : Byte) : colorspaceLegal x = true ↔ x = 0 ∨ x = 1 := by
  simp [colorspaceLegal]

/-! `EncodeHeader`, one equation for each outcome (R141, R142). -/

theorem encodeHeader_legal {c : Config} {h : Header} (hch : channelsLegal h.channels = true)
    (hcs : colorspaceLegal h.colorspace = true) :
    encodeHeader c h = .ok (c.magic ++ be32 h.width ++ be32 h.height ++ [h.channels, h.colorspace]) := by
  simp [encodeHeader, hch, hcs]

theorem encodeHeader_badColorspace {c : Config} {h : Header} (hch : channelsLegal h.channels = true)
    (hcs : ¬colorspaceLegal h.colorspace = true) : encodeHeader c h = .error .badColorspace := by
  simp [encodeHeader, hch, hcs]

theorem encodeHeader_badChannels {c : Config} {h : Header} (hch : ¬channelsLegal h.channels = true) :
    encodeHeader c h = .error .badChannels := by
  simp [encodeHeader, hch]

/-- Settles O42: the two tests are membership in `CH_LEGAL` and `CS_LEGAL`, and each outcome has its equation. -/
theorem encodeHeaderLayout : Obligations.EncodeHeaderLayout := by
  unfold Obligations.EncodeHeaderLayout
  intro c w h ch cs
  rw [← channelsLegal_iff, ← colorspaceLegal_iff]
  exact ⟨fun hch hcs => encodeHeader_legal hch hcs, fun hch hcs => encodeHeader_badColorspace hch hcs,
    fun hch => encodeHeader_badChannels hch⟩

/-! `DecodeHeader`, one equation for each failing test, the earlier tests passed (R143, R145). -/

theorem decodeHeader_hdrLength {c : Config} {bs : List Byte} (hlen : bs.length ≠ headerLen) :
    decodeHeader c bs = .error .hdrLength := by
  simp [decodeHeader, hlen]

section
variable {c : Config} {bs : List Byte} (hlen : bs.length = headerLen)
include hlen

theorem decodeHeader_badMagic (hm : bs.take 4 ≠ c.magic) : decodeHeader c bs = .error .badMagic := by
  simp [decodeHeader, hlen, hm]

variable (hm : bs.take 4 = c.magic)
include hm

theorem decodeHeader_hdrChannels (hch : ¬channelsLegal (headerFields bs).channels = true) :
    decodeHeader c bs = .error .hdrChannels := by
  simp [decodeHeader, hlen, hm, hch]

variable (hch : channelsLegal (headerFields bs).channels = true)
include hch

theorem decodeHeader_hdrColorspace (hcs : ¬colorspaceLegal (headerFields bs).colorspace = true) :
    decodeHeader c bs = .error .hdrColorspace := by
  simp [decodeHeader, hlen, hm, hch, hcs]

theorem decodeHeader_hdrZeroSize (hcs : colorspaceLegal (headerFields bs).colorspace = true)
    (hsize : (headerFields bs).pixelCount = 0) : decodeHeader c bs = .error .hdrZeroSize := by
  simp [decodeHeader, hlen, hm, hch, hcs, hsize]

end

/-- Four zero bytes read as zero; for the zero-size test of R143. -/
theorem unBe32_eq_zero {c0 c1 c2 c3 : Byte} (h : [c0, c1, c2, c3] = [0, 0, 0, 0]) : unBe32 c0 c1 c2 c3 = 0 := by
  obtain ⟨rfl, rfl, rfl, rfl⟩ : c0 = 0 ∧ c1 = 0 ∧ c2 = 0 ∧ c3 = 0 := by simpa using h
  decide

/-- A header with a zero width or height has no pixels (R147). -/
theorem pixelCount_eq_zero {h : Header} (hz : h.width = 0 ∨ h.height = 0) : h.pixelCount = 0 := by
  obtain hw | hh := hz
  · simp [Header.pixelCount, hw]
  · simp [Header.pixelCount, hh]

/-- Settles O44: each clause is the equation of its failing test; the clauses before it say that the tests before
passed. -/
theorem decodeHeaderFailsInOrder : Obligations.DecodeHeaderFailsInOrder := by
  unfold Obligations.DecodeHeaderFailsInOrder
  intro c m0 m1 m2 m3 w0 w1 w2 w3 h0 h1 h2 h3 ch cs bytes
  have hlen : bytes.length = headerLen := rfl
  rw [← channelsLegal_iff, ← colorspaceLegal_iff]
  refine ⟨fun _ => decodeHeader_hdrLength, fun hm => decodeHeader_badMagic hlen hm.symm,
    fun hm => ⟨decodeHeader_hdrChannels hlen hm.symm, fun hch =>
      ⟨decodeHeader_hdrColorspace hlen hm.symm hch, fun hcs hz => ?_⟩⟩⟩
  have hsize : (headerFields bytes).width = 0 ∨ (headerFields bytes).height = 0 :=
    hz.imp unBe32_eq_zero unBe32_eq_zero
  exact decodeHeader_hdrZeroSize hlen hm.symm hch hcs (pixelCount_eq_zero hsize)

end Sys2Proof.Proofs.HeaderCodec
end

section
/-! Proofs of the statements on 42_encoder.md: which token a pixel step emits, the counted run, `finish`, and ENC's
freedom from failure. -/

namespace Sys2Proof.Proofs.Encoder

open Sys2Proof Sys2Proof.Machine

/-! ## The two range tests, and the choice of a token, one equation for each outcome (R166 to R169) -/

theorem diffFits_iff (dr dg db : Int) :
    diffFits dr dg db = true ↔ -2 ≤ dr ∧ dr ≤ 1 ∧ -2 ≤ dg ∧ dg ≤ 1 ∧ -2 ≤ db ∧ db ≤ 1 := by
  simp [diffFits, and_assoc]

theorem lumaFits_iff (dr dg db : Int) :
    lumaFits dr dg db = true ↔
      -32 ≤ dg ∧ dg ≤ 31 ∧ -8 ≤ dr - dg ∧ dr - dg ≤ 7 ∧ -8 ≤ db - dg ∧ db - dg ≤ 7 := by
  simp only [lumaFits, inRange, Bool.and_eq_true, decide_eq_true_eq, and_assoc]

theorem chooseToken_rgba {prev p : Pixel} (ha : p.a ≠ prev.a) : chooseToken prev p = .rgba p.r p.g p.b p.a := by
  simp [chooseToken, ha]

section
variable {prev p : Pixel} (ha : p.a = prev.a)
include ha

theorem chooseToken_diff (hd : diffFits (delta p.r prev.r) (delta p.g prev.g) (delta p.b prev.b) = true) :
    chooseToken prev p = .diff (delta p.r prev.r) (delta p.g prev.g) (delta p.b prev.b) := by
  simp [chooseToken, ha, hd]

variable (hd : ¬diffFits (delta p.r prev.r) (delta p.g prev.g) (delta p.b prev.b) = true)
include hd

theorem chooseToken_luma (hl : lumaFits (delta p.r prev.r) (delta p.g prev.g) (delta p.b prev.b) = true) :
    chooseToken prev p =
      .luma (delta p.g prev.g) (delta p.r prev.r - delta p.g prev.g) (delta p.b prev.b - delta p.g prev.g) := by
  simp [chooseToken, ha, hd, hl]

theorem chooseToken_rgb (hl : ¬lumaFits (delta p.r prev.r) (delta p.g prev.g) (delta p.b prev.b) = true) :
    chooseToken prev p = .rgb p.r p.g p.b := by
  simp [chooseToken, ha, hd, hl]

end

/-! ## The pixel step for a pixel other than `prev` (R163 to R170) -/

/-- INDEX goes first (R164). -/
theorem encPixel_emits_index {c : Config} {p : Pixel} {e : Enc} (hp : p ≠ e.prev) (hc : e.cache[pixelHash p] = p) :
    EncEmitted (encode c (.index (pixelHash p))) p e (encPixel c p e) := by
  have h := encPixel_other (c := c) hp
  rwa [pickedBytes, if_pos hc] at h

/-- Where INDEX does not apply, the bytes are those of the chosen token (R165). -/
theorem encPixel_emits_chosen {c : Config} {p : Pixel} {e : Enc} {i : Instr} (hp : p ≠ e.prev)
    (hc : e.cache[pixelHash p] ≠ p) (hi : chooseToken e.prev p = i) :
    EncEmitted (encode c i) p e (encPixel c p e) := by
  have h := encPixel_other (c := c) hp
  rwa [pickedBytes, if_neg hc, hi] at h

/-- Settles O33: the slot test is ENC's first, and the bytes of INDEX are its own. -/
theorem encEmitsIndex : Obligations.EncEmitsIndex := by
  unfold Obligations.EncEmitsIndex
  intro c p e hp hc
  exact encPixel_emits_index hp hc

/-- Settles O34: past the slot test, alpha and the DIFF range choose DIFF. -/
theorem encEmitsDiff : Obligations.EncEmitsDiff := by
  unfold Obligations.EncEmitsDiff
  rintro c p e hp hc ha dr dg db rfl rfl rfl hd
  rw [← diffFits_iff] at hd
  exact encPixel_emits_chosen hp hc (chooseToken_diff ha hd)

/-- Settles O35: where the DIFF range fails, the LUMA range chooses LUMA. -/
theorem encEmitsLuma : Obligations.EncEmitsLuma := by
  unfold Obligations.EncEmitsLuma
  rintro c p e hp hc ha dr dg db rfl rfl rfl hd hl
  rw [← diffFits_iff] at hd
  rw [← lumaFits_iff] at hl
  exact encPixel_emits_chosen hp hc (chooseToken_luma ha hd hl)

/-- Settles O36: where both ranges fail, RGB is left. -/
theorem encEmitsRgb : Obligations.EncEmitsRgb := by
  unfold Obligations.EncEmitsRgb
  rintro c p e hp hc ha dr dg db rfl rfl rfl hd hl
  rw [← diffFits_iff] at hd
  rw [← lumaFits_iff] at hl
  exact encPixel_emits_chosen hp hc (chooseToken_rgb ha hd hl)

/-- Settles O37: the alpha test comes before both ranges. -/
theorem encEmitsRgba : Obligations.EncEmitsRgba := by
  unfold Obligations.EncEmitsRgba
  intro c p e hp hc ha
  exact encPixel_emits_chosen hp hc (chooseToken_rgba ha)

/-! ## The pixel step for a pixel equal to `prev` (R162) -/

theorem encPixel_prev (c : Config) (e : Enc) :
    encPixel c e.prev e = { e.countPixel c with ip := (e.countPixel c).ip + 1 } := by
  simp [encPixel]

/-- The token of a full count is 0xFD. -/
theorem encode_run_runMax (c : Config) : encode c (.run runMax) = [0xFD] := rfl

theorem countPixel_below {c : Config} {e : Enc} (h : e.run + 1 ≠ runMax) :
    e.countPixel c = { e with run := e.run + 1 } := by
  simp [Enc.countPixel, h]

theorem countPixel_full {c : Config} {e : Enc} (h : e.run + 1 = runMax) :
    e.countPixel c = { e with run := 0, tout := e.tout ++ [0xFD] } := by
  simp [Enc.countPixel, h, Enc.emitRun, Enc.emit, encode_run_runMax]

theorem countPixel_status (c : Config) (e : Enc) : (e.countPixel c).status = e.status := by
  by_cases h : e.run + 1 = runMax
  · rw [countPixel_full h]
  · rw [countPixel_below h]

/-- Settles O32: the step of a pixel equal to `prev` is `countPixel`, which flushes exactly at RUN_MAX. -/
theorem encCountsARepeatedPixel : Obligations.EncCountsARepeatedPixel := by
  unfold Obligations.EncCountsARepeatedPixel
  intro c e
  rw [encPixel_prev]
  constructor
  · intro h
    rw [countPixel_below h]
  · intro h
    rw [countPixel_full h]

/-! ## `finish` (R171) -/

theorem encFinish_eq (c : Config) (e : Enc) :
    encFinish c e = { e with tout := e.tout ++ owedRun e, run := 0, status := .done } := by
  rw [encFinish, flushRun_eq]

theorem encResult_of_done {e : Enc} (h : e.status = .done) : encResult e = some e.tout := by
  simp [encResult, h]

/-- In a run that the framing layer does not hold, the command is accepted (R160). -/
theorem cmdEncFinish_accepted {c : Config} {s : State} (hrun : s.enc.status = .run) (hfree : encOwned s = false) :
    cmdEncFinish c s = s.setEnc (encFinish c s.enc) := by
  simp [cmdEncFinish, hrun, hfree]

/-- Settles O38: `finish` is the flush and the write of `status`; as a command it is accepted in the host's run. -/
theorem finishFlushesTheRun : Obligations.FinishFlushesTheRun := by
  unfold Obligations.FinishFlushesTheRun
  constructor
  · intro c e
    rw [encFinish_eq]
    exact ⟨rfl, encResult_of_done rfl⟩
  · intro s more hi hrun hfree
    have hacc : cmdEncFinish standardConfig (s.setInputs more) =
        (s.setInputs more).setEnc (encFinish standardConfig s.enc) :=
      cmdEncFinish_accepted hrun ((encOwned_iff _).2 hfree)
    rw [step_of_cmd hi, hostCommand, hacc]
    rfl

/-! ## ENC never fails (R173) -/

/-- What a step of the machine can do to ENC: nothing, `start`, the pixel step of a pixel that the host pushes or that
stands next in `PIN`, `finish`, or power-on reset (R160; 44_file_framing.md R242; 70_reset_and_hazards.md R301). -/
inductive EncMove (c : Config) (e : Enc) : Enc → Prop
  | stays : EncMove c e e
  | start (pin : List Pixel) : EncMove c e (encStart { e with pin := pin })
  | push (p : Pixel) (hrun : e.status = .run) : EncMove c e (encPixel c p { e with pin := e.pin ++ [p] })
  | next (p : Pixel) (hrun : e.status = .run) (hp : e.pin[e.ip]? = some p) : EncMove c e (encPixel c p e)
  | finish (hrun : e.status = .run) : EncMove c e (encFinish c e)
  | powerOn (e' : Enc) (hidle : e'.status = .idle) (hpin : e'.pin = e.pin) (htout : e'.tout = []) : EncMove c e e'

theorem beginEncode_encMove (c : Config) (pixels : List Pixel) (s : State) :
    EncMove c s.enc (beginEncode c pixels s).enc := by
  simp only [beginEncode]
  split
  · exact .stays
  · exact .start pixels

theorem beginDecode_enc (c : Config) (file : List Byte) (s : State) : (beginDecode c file s).enc = s.enc := by
  simp only [beginDecode]
  split <;> rfl

/-- A push or `finish` that is not refused is in a run (R304). -/
theorem enc_run_of_accepted {s : State} (h : ¬(encOwned s || s.enc.status != .run) = true) : s.enc.status = .run := by
  obtain ⟨-, hrun⟩ : encOwned s = false ∧ s.enc.status = .run := by simpa using h
  exact hrun

/-- Only `start`, push, `finish` and `Encode` move ENC. -/
theorem hostCommand_encMove (c : Config) (x : HostCmd) (s : State) : EncMove c s.enc (hostCommand c x s).enc := by
  cases x with
  | encStart =>
    simp only [hostCommand, cmdEncStart]
    split
    · exact .stays
    · exact .start []
  | encPush p =>
    simp only [hostCommand, cmdEncPush]
    split
    next => exact .stays
    next h => exact .push p (enc_run_of_accepted h)
  | encFinish =>
    simp only [hostCommand, cmdEncFinish]
    split
    next => exact .stays
    next h => exact .finish (enc_run_of_accepted h)
  | encode pixels =>
    simp only [hostCommand, cmdEncode]
    split
    · exact .stays
    · exact beginEncode_encMove c pixels s
  | decode file =>
    simp only [hostCommand, cmdDecode]
    split
    · exact .stays
    · rw [beginDecode_enc]; exact .stays
  | decStart | writeNpix | writeTlen | writeTin | writeHdr =>
    simp only [hostCommand, cmdDecStart, cmdWriteNpix, cmdWriteTlen, cmdWriteTin, cmdWriteHdr]
    split <;> exact .stays

/-- The framing layer moves ENC in `Encode` alone: through `PIN`, then to the end of the run. -/
theorem frmNext_encMove {c : Config} {s t : State} (h : frmNext c s = some t) : EncMove c s.enc t.enc := by
  unfold frmNext at h
  split at h
  next => cases h
  next =>
    split at h
    next hrun =>
      split at h
      next p hp => cases h; exact .next p hrun hp
      next => cases h; exact .finish hrun
    next => cases h; exact .stays
    next => cases h
    next => cases h
  next =>
    split at h
    next => cases h; exact .stays
    next => cases h; exact .stays
    next => cases h

/-- Every step is one of ENC's moves. -/
theorem step_encMove {s t : State} (h : step s = .next t) : EncMove standardConfig s.enc t.enc := by
  obtain ⟨-, hdec⟩ | rfl | hfrm | ⟨x, rfl⟩ | rfl := step_inv h
  · obtain ⟨t', ht', henc, -, -⟩ := decToken_frame standardConfig (s.setInputs s.inputs.tail)
    obtain rfl : t' = t := Host.Outcome.next.inj (ht'.symm.trans hdec)
    rw [henc]
    exact .stays
  · exact .stays
  · exact (frmNext_encMove hfrm :)
  · exact hostCommand_encMove standardConfig x (s.setInputs s.inputs.tail)
  · exact .powerOn _ rfl rfl rfl

theorem encPixel_status (c : Config) (p : Pixel) (e : Enc) : (encPixel c p e).status = e.status := by
  by_cases hp : p = e.prev
  · rw [hp, encPixel_prev]
    exact countPixel_status c e
  · exact (encPixel_other hp).status

/-- No move of ENC leads to FAULT. -/
theorem encMove_not_fault {c : Config} {e e' : Enc} (hm : EncMove c e e') (h : e.status ≠ .fault) :
    e'.status ≠ .fault := by
  cases hm with
  | stays => exact h
  | start pin => simp
  | push p hrun => rw [encPixel_status]; exact h
  | next p hrun hp => rw [encPixel_status]; exact h
  | finish hrun => simp [encFinish_eq]
  | powerOn _ hidle hpin htout => simp [hidle]

/-- Settles O41: whatever a step does, it does to ENC one of its moves, and none leads to FAULT. -/
theorem encNeverFails : Obligations.EncNeverFails := by
  unfold Obligations.EncNeverFails
  intro s t h hs
  exact encMove_not_fault (step_encMove hs) h

end Sys2Proof.Proofs.Encoder
end

section
/-! Proofs of the statements on 43_decoder.md: the token step, the six tokens, and the end of a run. -/

namespace Sys2Proof.Proofs.Decoder

open Sys2Proof Sys2Proof.Machine

/-! ## What a token comes to (R201, R209) -/

theorem produce_tokenDone {px : Pixel} {n len : Nat} {s : State} (h : s.dec.op + n ≤ s.dec.npix) :
    ∃ t, produce px n len s = .next t ∧ TokenDone px n len s t :=
  ⟨_, produce_fits h, tail_tokenDone px n len s⟩

theorem produce_decFailed {px : Pixel} {n len : Nat} {s : State} (h : s.dec.npix < s.dec.op + n) :
    ∃ t, produce px n len s = .next t ∧ DecFailed .runOverrun s t :=
  ⟨_, produce_overruns h, raise_decFailed .runOverrun s⟩

/-- Settles O21: every token is `produce` for its own number of pixels, and `produce` makes the overrun test first. -/
theorem tokensThatDoNotFitFail : Obligations.TokensThatDoNotFitFail := by
  unfold Obligations.TokensThatDoNotFitFail
  intro i s h
  obtain ⟨px, he⟩ := exec_produces i s
  rw [he]
  exact produce_decFailed h

/-! The meaning of each token where its pixels fit (R203 to R208). -/

section
variable (s : State)

theorem exec_rgb_done (r g b : Byte) (h : s.dec.op + 1 ≤ s.dec.npix) :
    ∃ t, exec (.rgb r g b) s = .next t ∧ TokenDone ⟨r, g, b, s.dec.prev.a⟩ 1 4 s t :=
  produce_tokenDone h

theorem exec_rgba_done (r g b a : Byte) (h : s.dec.op + 1 ≤ s.dec.npix) :
    ∃ t, exec (.rgba r g b a) s = .next t ∧ TokenDone ⟨r, g, b, a⟩ 1 5 s t :=
  produce_tokenDone h

theorem exec_diff_done (dr dg db : Int) (h : s.dec.op + 1 ≤ s.dec.npix) :
    ∃ t, exec (.diff dr dg db) s = .next t ∧ TokenDone (applyDeltas s.dec.prev dr dg db) 1 1 s t :=
  produce_tokenDone h

theorem exec_luma_done (dg drdg dbdg : Int) (h : s.dec.op + 1 ≤ s.dec.npix) :
    ∃ t, exec (.luma dg drdg dbdg) s = .next t ∧
      TokenDone (applyDeltas s.dec.prev (dg + drdg) dg (dg + dbdg)) 1 2 s t :=
  produce_tokenDone h

theorem exec_run_done (n : Nat) (h : s.dec.op + n ≤ s.dec.npix) :
    ∃ t, exec (.run n) s = .next t ∧ TokenDone s.dec.prev n 1 s t :=
  produce_tokenDone h

theorem exec_index_done (k : Fin 64) (h : s.dec.op + 1 ≤ s.dec.npix) :
    ∃ t, exec (.index k) s = .next t ∧ TokenDone s.dec.cache[k] 1 1 s t :=
  produce_tokenDone h

end

/-- A token that repeats `prev` leaves the cache alone where `prev` stands in its slot already (10_state.md R25). -/
theorem cache_of_tokenDone_prev {n len : Nat} {s t : State} (h : TokenDone s.dec.prev n len s t)
    (hp : s.dec.PrevHeld) : t.dec.cache = s.dec.cache := by
  have hslot (k : Fin 64) : t.dec.cache[k] = s.dec.cache[k] := by
    by_cases hk : k = pixelHash s.dec.prev
    · rw [hk, h.slot]
      exact hp.symm
    · exact h.other_slots k hk
  exact Vector.ext fun i hi => hslot ⟨i, hi⟩

/-! ## The step is a fetch and the fetched token (R200 to R202) -/

theorem decEnabled_of_running {s : State} (hs : DecRunning s) : decEnabled s.dec = true :=
  (decEnabled_iff s.dec).2 ⟨hs.in_run, hs.has_room⟩

theorem step_of_running {s : State} (hs : DecRunning s) : step s = decToken standardConfig s := by
  simp [step, stepWith, ownStep, hs.no_input, decEnabled_of_running hs]

/-- DEC's turn among the inputs is the same token step (log entry 5). -/
theorem step_decTurn_of_running {s : State} (hs : DecRunning s) (more : List Input) :
    step (s.setInputs (.decTurn :: more)) = decToken standardConfig (s.setInputs more) :=
  if_pos (decEnabled_of_running hs)

theorem decToken_of_fetch {c : Config} {s : State} {i : Instr} (h : fetch c s.dec = .ok i) :
    decToken c s = exec i s := by
  simp [decToken, h]

theorem decToken_of_fetch_error {c : Config} {s : State} {k : Cause} (h : fetch c s.dec = .error k) :
    decToken c s = .next (raise .dec k s) := by
  simp [decToken, h]

theorem fetch_of_decode {c : Config} {d : Dec} {i : Instr} {rest : List Byte}
    (h : decode c (memRead d.tin d.ip (d.tlen - d.ip)) = .ok (i, rest)) : fetch c d = .ok i := by
  rw [fetch_eq, h]

theorem fetch_of_decode_error {c : Config} {d : Dec} {e : DecodeError}
    (h : decode c (memRead d.tin d.ip (d.tlen - d.ip)) = .error e) : fetch c d = .error .truncated := by
  rw [fetch_eq, h]

/-- The first `len` bytes suffice: a token decodes the same whatever the stream goes on with. -/
theorem fetch_of_first_bytes {c : Config} {d : Dec} {len : Nat} {i : Instr} {rest : List Byte}
    (hlen : d.ip + len ≤ d.tlen) (h : decode c (memRead d.tin d.ip len) = .ok (i, rest)) : fetch c d = .ok i := by
  have hsplit : d.tlen - d.ip = len + (d.tlen - d.ip - len) := by omega
  apply fetch_of_decode
  rw [hsplit, memRead_add]
  exact decode_append h _

section
variable {s : State} (hs : DecRunning s)
include hs

theorem step_of_first_bytes {len : Nat} {i : Instr} {rest : List Byte} (hlen : s.dec.ip + len ≤ s.dec.tlen)
    (h : decode standardConfig (memRead s.dec.tin s.dec.ip len) = .ok (i, rest)) : step s = exec i s :=
  (step_of_running hs).trans (decToken_of_fetch (fetch_of_first_bytes hlen h))

theorem step_truncated (h : fetch standardConfig s.dec = .error .truncated) :
    ∃ t, step s = .next t ∧ DecFailed .truncated s t :=
  ⟨_, (step_of_running hs).trans (decToken_of_fetch_error h), raise_decFailed .truncated s⟩

/-- Operand bytes are missing where the first byte's class wants more bytes than the stream has (R202). -/
theorem step_operands_missing {k : TokenClass} (hk : classify standardConfig (s.dec.tin.read s.dec.ip) = k)
    (h : s.dec.tlen < s.dec.ip + tokenLength k) : ∃ t, step s = .next t ∧ DecFailed .truncated s t := by
  subst hk
  exact step_truncated hs (by simp [fetch, h])

end

/-- Settles O24: the fetch gives the token that the bytes decode to, and both the machine's own step and DEC's turn run
the token that the fetch gives. -/
theorem stepRunsTheDecodedToken : Obligations.StepRunsTheDecodedToken := by
  unfold Obligations.StepRunsTheDecodedToken
  intro s i rest hs h
  have hf : fetch standardConfig s.dec = .ok i := fetch_of_decode h
  exact ⟨(step_of_running hs).trans (decToken_of_fetch hf),
    fun more => (step_decTurn_of_running hs more).trans (decToken_of_fetch (s := s.setInputs more) hf)⟩

/-- Settles O25: bytes that decode to no token make the fetch answer TRUNCATED. -/
theorem stepFailsWhereTheStreamEnds : Obligations.StepFailsWhereTheStreamEnds := by
  unfold Obligations.StepFailsWhereTheStreamEnds
  intro s e hs h
  exact step_truncated hs (fetch_of_decode_error h)

/-! ## The token that stands at an address, by the class of its first byte (30_encoding.md R87 to R92) -/

section
variable {c : Config} {m : Memory} {a : Nat}

theorem decode_rgb_at (h : classify c (m.read a) = .rgb) :
    decode c (memRead m a 4) = .ok (.rgb (m.read (a + 1)) (m.read (a + 2)) (m.read (a + 3)), []) := by
  rw [memRead_succ, decode, h]; rfl

theorem decode_rgba_at (h : classify c (m.read a) = .rgba) :
    decode c (memRead m a 5) =
      .ok (.rgba (m.read (a + 1)) (m.read (a + 2)) (m.read (a + 3)) (m.read (a + 4)), []) := by
  rw [memRead_succ, decode, h]; rfl

theorem decode_diff_at (h : classify c (m.read a) = .diff) :
    decode c (memRead m a 1) = .ok (.diff (field (m.read a) 5 4 - 2) (field (m.read a) 3 2 - 2)
      (field (m.read a) 1 0 - 2), []) := by
  rw [memRead_succ, decode, h]; rfl

theorem decode_luma_at (h : classify c (m.read a) = .luma) :
    decode c (memRead m a 2) = .ok (.luma (field (m.read a) 5 0 - 32) (field (m.read (a + 1)) 7 4 - 8)
      (field (m.read (a + 1)) 3 0 - 8), []) := by
  rw [memRead_succ, decode, h]; rfl

theorem decode_run_at (h : classify c (m.read a) = .run) :
    decode c (memRead m a 1) = .ok (.run (field (m.read a) 5 0 + 1), []) := by
  rw [memRead_succ, decode, h]; rfl

theorem decode_index_at (h : classify c (m.read a) = .index) :
    decode c (memRead m a 1) = .ok (.index (Fin.ofNat 64 (field (m.read a) 5 0)), []) := by
  rw [memRead_succ, decode, h]; rfl

end

/-! The class of a first byte by its top field (30_encoding.md R83), with the standard tags. -/

section
variable {b : Byte}

theorem classify_diff_of_field (h : field b 7 6 = 0b01) : classify standardConfig b = .diff := by
  rw [field_top] at h
  exact classify_diff standardConfig_legal (by omega) (by omega)

theorem classify_luma_of_field (h : field b 7 6 = 0b10) : classify standardConfig b = .luma := by
  rw [field_top] at h
  exact classify_luma standardConfig_legal (by omega) (by omega)

/-- The `11` quarter without the two exact tags. -/
theorem toNat_of_run_byte (h : field b 7 6 = 0b11) (hfe : b ≠ 0xFE) (hff : b ≠ 0xFF) :
    192 ≤ b.toNat ∧ b.toNat < 254 := by
  rw [field_top] at h
  bv_omega

end

/-! ## The six tokens, from their operands and from the bytes at `dec.ip` -/

/-- Settles O13: the bytes at `dec.ip` decode to the RGB token, whose meaning is `exec_rgb_done`; with less than the
length of an RGB token the operands are missing. -/
theorem rgbKeepsThePreviousAlpha : Obligations.RgbKeepsThePreviousAlpha := by
  unfold Obligations.RgbKeepsThePreviousAlpha
  have hclass {b : Byte} (h : b = standardConfig.tagRgb) : classify standardConfig b = .rgb := by
    rw [h, classify_tagRgb]
  refine ⟨fun r g b s h => exec_rgb_done s r g b h, fun s hs htag hlen => ?_, fun s hs htag _ hshort => ?_⟩
  · rw [step_of_first_bytes hs hlen (decode_rgb_at (hclass htag))]
    exact exec_rgb_done s _ _ _ hs.has_room
  · exact step_operands_missing hs (hclass htag) hshort

/-- Settles O14: as for RGB, with four operand bytes. -/
theorem rgbaTakesAllFourChannels : Obligations.RgbaTakesAllFourChannels := by
  unfold Obligations.RgbaTakesAllFourChannels
  have hclass {b : Byte} (h : b = standardConfig.tagRgba) : classify standardConfig b = .rgba := by
    rw [h, classify_tagRgba standardConfig_legal]
  refine ⟨fun r g b a s h => exec_rgba_done s r g b a h, fun s hs htag hlen => ?_, fun s hs htag _ hshort => ?_⟩
  · rw [step_of_first_bytes hs hlen (decode_rgba_at (hclass htag))]
    exact exec_rgba_done s _ _ _ _ hs.has_room
  · exact step_operands_missing hs (hclass htag) hshort

/-- Settles O15: a byte whose top field is `01` is a DIFF token of its three biased fields. -/
theorem diffAppliesThreeDeltas : Obligations.DiffAppliesThreeDeltas := by
  unfold Obligations.DiffAppliesThreeDeltas
  refine ⟨fun dr dg db s h => exec_diff_done s dr dg db h, ?_⟩
  rintro s _ hs hip rfl htop
  rw [step_of_first_bytes hs hip (decode_diff_at (classify_diff_of_field htop))]
  exact exec_diff_done s _ _ _ hs.has_room

/-- Settles O16: a byte whose top field is `10` and the byte after it are a LUMA token; alone it lacks its operand. -/
theorem lumaAppliesDeltasRelativeToGreen : Obligations.LumaAppliesDeltasRelativeToGreen := by
  unfold Obligations.LumaAppliesDeltasRelativeToGreen
  refine ⟨fun dg drdg dbdg s h => exec_luma_done s dg drdg dbdg h, ?_, fun s hs htop hend => ?_⟩
  · rintro s _ _ hs hlen rfl rfl htop dg
    rw [step_of_first_bytes hs hlen (decode_luma_at (classify_luma_of_field htop))]
    exact exec_luma_done s _ _ _ hs.has_room
  · have hshort : s.dec.tlen < s.dec.ip + tokenLength .luma := by
      simp only [tokenLength]
      omega
    exact step_operands_missing hs (classify_luma_of_field htop) hshort

/-- Settles O17: RUN is `produce` of `prev` for its count, with both outcomes of the overrun test; the two exact tags
taken out, the count that a byte of the `11` quarter holds is at most 62. -/
theorem runRepeatsThePreviousPixel : Obligations.RunRepeatsThePreviousPixel := by
  unfold Obligations.RunRepeatsThePreviousPixel
  have hover (n : Nat) (s : State) (h : s.dec.npix < s.dec.op + n) :
      ∃ t, exec (.run n) s = .next t ∧ DecFailed .runOverrun s t := produce_decFailed h
  refine ⟨fun n s h => ?_, hover, ?_⟩
  · obtain ⟨t, ht, hd⟩ := exec_run_done s n h
    exact ⟨t, ht, hd, cache_of_tokenDone_prev hd⟩
  · rintro s _ hs hip rfl htop hfe hff n
    obtain ⟨hlo, hhi⟩ := toNat_of_run_byte htop hfe hff
    have hn : n ≤ 62 := by
      have hval : n = (s.dec.tin.read s.dec.ip).toNat % 64 + 1 := congrArg (· + 1) (field_low6 _)
      omega
    refine ⟨Nat.succ_pos _, hn, ?_⟩
    rw [step_of_first_bytes hs hip (decode_run_at (classify_run standardConfig_legal hlo hhi))]
    rcases Nat.lt_or_ge s.dec.npix (s.dec.op + n) with hlt | hge
    · obtain ⟨t, ht, hf⟩ := hover n s hlt
      exact ⟨t, ht, fun hfit => absurd hlt (Nat.not_lt.2 hfit), fun _ => hf⟩
    · obtain ⟨t, ht, hd⟩ := exec_run_done s n hge
      exact ⟨t, ht, fun _ => hd, fun hlt => absurd hlt (Nat.not_lt.2 hge)⟩

/-- Settles O18: a byte below 64 is the INDEX token of the slot it numbers. -/
theorem indexCopiesItsSlot : Obligations.IndexCopiesItsSlot := by
  unfold Obligations.IndexCopiesItsSlot
  refine ⟨fun k s h => exec_index_done s k h, fun s k hs hip hk => ?_⟩
  have hclass : classify standardConfig (s.dec.tin.read s.dec.ip) = .index :=
    classify_index standardConfig_legal (by rw [hk]; exact k.isLt)
  have hslot : Fin.ofNat 64 (field (s.dec.tin.read s.dec.ip) 5 0) = k := by
    rw [field_low6, hk]
    exact Fin.ext (by simp [Nat.mod_eq_of_lt k.isLt])
  rw [step_of_first_bytes hs hip (decode_index_at hclass), hslot]
  exact exec_index_done s k hs.has_room

/-! ## The end of a run (R210 to R212) -/

/-- DEC in a run for `n` pixels that has not failed: `op` counts the pixels written, and the run is DONE exactly when
it has written all of them. -/
structure RunSound (n : Nat) (d : Dec) : Prop where
  npix   : d.npix = n
  count  : d.pout.length = d.op
  op_le  : d.op ≤ n
  status : d.status = if d.op = n then .done else .run

/-- DEC at the end of a run for `n` pixels. -/
def RunEnded (n : Nat) (d : Dec) : Prop :=
  (d.status = .done ∧ d.pout.length = n) ∨
    (d.status = .fault ∧ d.pout = [] ∧ (d.cause = some .truncated ∨ d.cause = some .runOverrun))

theorem decSetup_runSound (t : List Byte) (n : Nat) (d : Dec) : RunSound n (decSetup t n d) where
  npix := rfl
  count := rfl
  op_le := Nat.zero_le n
  status := by simp [decSetup, eq_comm]

theorem tail_runSound {n k len : Nat} {px : Pixel} {d : Dec} (h : RunSound n d) (hne : d.op ≠ n)
    (hfit : d.op + k ≤ d.npix) : RunSound n (d.tail px k len) where
  npix := h.npix
  count := by simp [h.count]
  op_le := h.npix ▸ hfit
  status := by rw [tail_status, tail_op, h.npix, h.status, if_neg hne]

theorem decEnabled_of_runSound {n : Nat} {d : Dec} (h : RunSound n d) (hne : d.op ≠ n) : decEnabled d = true := by
  have hle := h.op_le
  have hn := h.npix
  exact (decEnabled_iff d).2 ⟨by rw [h.status, if_neg hne], by omega⟩

theorem runSound_full {n m : Nat} {c : Config} {s : State} (h : RunSound n s.dec) (hop : s.dec.op = n) :
    RunEnded n (decSteps c m s).dec := by
  have hdone : s.dec.status = .done := by rw [h.status, if_pos hop]
  rw [decSteps_end (by simp [decEnabled, hdone])]
  exact .inl ⟨hdone, h.count.trans hop⟩

theorem decSteps_raise (c : Config) (m : Nat) (k : Cause) (s : State) :
    decSteps c m (raise .dec k s) = raise .dec k s :=
  decSteps_end (by simp [decEnabled])

/-- As many token steps as pixels are missing end the run: each writes at least one pixel (R211). -/
theorem decSteps_ends {c : Config} {n : Nat} (m : Nat) (s : State) (h : RunSound n s.dec) (hm : n ≤ s.dec.op + m) :
    RunEnded n (decSteps c m s).dec := by
  induction m generalizing s with
  | zero => exact runSound_full h (Nat.le_antisymm h.op_le hm)
  | succ m ih =>
    by_cases hop : s.dec.op = n
    · exact runSound_full h hop
    have he : decEnabled s.dec = true := decEnabled_of_runSound h hop
    obtain ⟨i, px, -, hpos, hfit, -, -, hd⟩ | ⟨-, hd⟩ | ⟨i, -, -, hd⟩ := decToken_cases c s
    all_goals rw [decSteps_next he hd]
    case inl =>
      apply ih _ (tail_runSound h hop hfit)
      simp only [setDec_dec, tail_op]
      omega
    case inr.inl => rw [decSteps_raise]; exact .inr ⟨rfl, rfl, .inl rfl⟩
    case inr.inr => rw [decSteps_raise]; exact .inr ⟨rfl, rfl, .inr rfl⟩

/-- Settles O49: `start` begins a sound run, which `n` token steps end. -/
theorem everyDecodeRunEnds : Obligations.EveryDecodeRunEnds := by
  unfold Obligations.EveryDecodeRunEnds
  intro c t n s
  exact decSteps_ends n _ (decSetup_runSound t n s.dec) (Nat.le_add_left n _)

end Sys2Proof.Proofs.Decoder
end

section
/-! Proofs of the statements on 30_encoding.md: tokens and their bytes, in both directions. -/

namespace Sys2Proof.Proofs.Codec

open Sys2Proof Sys2Proof.Machine Sys2Proof.Laws

/-! ## The class of a first byte, read off its value (R83, R85) -/

section
variable {c : Config} (hc : c.Legal) (b : Byte)
include hc

/-- Each first byte stands in one of six places, and its class is that of the place (R85). -/
theorem classify_cases :
    (classify c b = .index ∧ b.toNat < 64) ∨
    (classify c b = .diff ∧ 64 ≤ b.toNat ∧ b.toNat < 128) ∨
    (classify c b = .luma ∧ 128 ≤ b.toNat ∧ b.toNat < 192) ∨
    (classify c b = .run ∧ 192 ≤ b.toNat ∧ b.toNat < 254) ∨
    (classify c b = .rgb ∧ b = c.tagRgb) ∨
    (classify c b = .rgba ∧ b = c.tagRgba) := by
  rcases Nat.lt_or_ge b.toNat 64 with h64 | h64
  · exact .inl ⟨classify_index hc h64, h64⟩
  rcases Nat.lt_or_ge b.toNat 128 with h128 | h128
  · exact .inr (.inl ⟨classify_diff hc h64 h128, h64, h128⟩)
  rcases Nat.lt_or_ge b.toNat 192 with h192 | h192
  · exact .inr (.inr (.inl ⟨classify_luma hc h128 h192, h128, h192⟩))
  rcases Nat.lt_or_ge b.toNat 254 with h254 | h254
  · exact .inr (.inr (.inr (.inl ⟨classify_run hc h192 h254, h192, h254⟩)))
  have htag : b = c.tagRgb ∨ b = c.tagRgba := by
    have hb : b = 0xFE ∨ b = 0xFF := by bv_omega
    obtain ⟨-, -, ⟨hrgb, hrgba⟩ | ⟨hrgb, hrgba⟩⟩ := hc
    · rwa [hrgb, hrgba]
    · rwa [hrgb, hrgba, or_comm]
  rcases htag with rfl | rfl
  · exact .inr (.inr (.inr (.inr (.inl ⟨classify_tagRgb c, rfl⟩))))
  · exact .inr (.inr (.inr (.inr (.inr ⟨classify_tagRgba hc, rfl⟩))))

/-- The exact tags are the two bytes above every other class, and differ (R84). -/
theorem tags_apart : 254 ≤ c.tagRgb.toNat ∧ 254 ≤ c.tagRgba.toNat ∧ c.tagRgb ≠ c.tagRgba := by
  obtain ⟨-, -, ⟨hrgb, hrgba⟩ | ⟨hrgb, hrgba⟩⟩ := hc <;> rw [hrgb, hrgba] <;> decide

end

/-! ## The operand ranges, as inequalities (R96) -/

theorem wf_diff_iff (dr dg db : Int) : (Instr.diff dr dg db).wf = true ↔
    (-2 ≤ dr ∧ dr ≤ 1) ∧ (-2 ≤ dg ∧ dg ≤ 1) ∧ (-2 ≤ db ∧ db ≤ 1) := by
  simp [Instr.wf, and_assoc]

theorem wf_luma_iff (dg drdg dbdg : Int) : (Instr.luma dg drdg dbdg).wf = true ↔
    (-32 ≤ dg ∧ dg ≤ 31) ∧ (-8 ≤ drdg ∧ drdg ≤ 7) ∧ (-8 ≤ dbdg ∧ dbdg ≤ 7) := by
  simp [Instr.wf, and_assoc]

theorem wf_run_iff (n : Nat) : (Instr.run n).wf = true ↔ 1 ≤ n ∧ n ≤ 62 := by simp [Instr.wf]

/-! ## From the token to its bytes and back (R96) -/

/-- What is decoded is assembled from the first byte on: it is of the token's class. -/
theorem decode_encode_eq_assemble {i : Instr} (shape : EncodedShape.Statement i) (hw : i.wf = true) {c : Config}
    (hc : c.Legal) {b0 : Byte} {tl : List Byte} (he : encode c i = b0 :: tl) (rest : List Byte) :
    decode c (encode c i ++ rest) = assemble i.tokenClass b0 (tl ++ rest) := by
  obtain ⟨b, tl', hb, hclass, -⟩ := shape hw c hc
  obtain ⟨rfl, rfl⟩ := List.cons.inj (hb.symm.trans he)
  rw [he, List.cons_append, decode, hclass]

/-- The fields of a DIFF byte (R88). -/
theorem assemble_diff {fr fg fb : Int} (hr : 0 ≤ fr ∧ fr < 4) (hg : 0 ≤ fg ∧ fg < 4) (hb : 0 ≤ fb ∧ fb < 4)
    (rest : List Byte) :
    assemble .diff (u8 (0x40 + 16 * fr + 4 * fg + fb)) rest = .ok (.diff (fr - 2) (fg - 2) (fb - 2), rest) := by
  have h := u8_toNat_of_lt (x := 0x40 + 16 * fr + 4 * fg + fb) (by omega) (by omega)
  simp only [assemble, field, Except.ok.injEq, Prod.mk.injEq, Instr.diff.injEq, and_true]
  omega

/-- The fields of a LUMA pair of bytes (R89). -/
theorem assemble_luma {fgl frg fbg : Int} (hgl : 0 ≤ fgl ∧ fgl < 64) (hrg : 0 ≤ frg ∧ frg < 16)
    (hbg : 0 ≤ fbg ∧ fbg < 16) (rest : List Byte) :
    assemble .luma (u8 (0x80 + fgl)) (u8 (16 * frg + fbg) :: rest) =
      .ok (.luma (fgl - 32) (frg - 8) (fbg - 8), rest) := by
  have h0 := u8_toNat_of_lt (x := 0x80 + fgl) (by omega) (by omega)
  have h1 := u8_toNat_of_lt (x := 16 * frg + fbg) (by omega) (by omega)
  simp only [assemble, field, Except.ok.injEq, Prod.mk.injEq, Instr.luma.injEq, and_true]
  omega

/-- The field of a RUN byte (R90). -/
theorem assemble_run {n : Nat} (hn : 1 ≤ n ∧ n ≤ 62) (rest : List Byte) :
    assemble .run (u8 (0xC0 + ((n : Int) - 1))) rest = .ok (.run n, rest) := by
  have h := u8_toNat_of_lt (x := 0xC0 + ((n : Int) - 1)) (by omega) (by omega)
  simp only [assemble, field_low6, Except.ok.injEq, Prod.mk.injEq, Instr.run.injEq, and_true]
  omega

/-- The field of an INDEX byte (R87). -/
theorem assemble_index (k : Fin 64) (rest : List Byte) :
    assemble .index (u8 (k.val : Int)) rest = .ok (.index k, rest) := by
  have h := u8_toNat_of_lt (x := (k.val : Int)) (by omega) (by omega)
  simp only [assemble, field_low6, Except.ok.injEq, Prod.mk.injEq, Instr.index.injEq, and_true, Fin.ext_iff,
    Fin.val_ofNat]
  omega

/-- Decoding the bytes of a well-formed token gives it back and leaves what follows (R96). -/
theorem decode_encode {c : Config} (hc : c.Legal) {i : Instr} (hw : i.wf = true) (rest : List Byte) :
    decode c (encode c i ++ rest) = .ok (i, rest) := by
  cases i with
  | rgb r g b => rw [decode_encode_eq_assemble (EncodedShape.rgb r g b) hw hc rfl]; rfl
  | rgba r g b a => rw [decode_encode_eq_assemble (EncodedShape.rgba r g b a) hw hc rfl]; rfl
  | diff dr dg db =>
    rw [decode_encode_eq_assemble (EncodedShape.diff dr dg db) hw hc rfl]
    rw [wf_diff_iff] at hw
    have h := assemble_diff (fr := dr + 2) (fg := dg + 2) (fb := db + 2) (by omega) (by omega) (by omega) rest
    simpa [Instr.tokenClass] using h
  | luma dg drdg dbdg =>
    rw [decode_encode_eq_assemble (EncodedShape.luma dg drdg dbdg) hw hc rfl]
    rw [wf_luma_iff] at hw
    have h := assemble_luma (fgl := dg + 32) (frg := drdg + 8) (fbg := dbdg + 8) (by omega) (by omega) (by omega) rest
    simpa [Instr.tokenClass] using h
  | run n =>
    rw [decode_encode_eq_assemble (EncodedShape.run n) hw hc rfl]
    exact assemble_run ((wf_run_iff n).1 hw) rest
  | index k =>
    rw [decode_encode_eq_assemble (EncodedShape.index k) hw hc rfl]
    exact assemble_index k rest

/-- Settles O2: the first byte has the token's class, and the fields assembled from the bytes are the operands. -/
theorem decodeOfEncodeIsTheToken : Obligations.DecodeOfEncodeIsTheToken := by
  unfold Obligations.DecodeOfEncodeIsTheToken
  intro c hc i hw rest
  exact decode_encode hc hw rest

/-- Settles O6: the bytes with these field values are those of the token with the biases taken off. -/
theorem biasedFields : Obligations.BiasedFields := by
  unfold Obligations.BiasedFields
  intro c hc rest
  refine ⟨fun fr fg fb hr hg hb => ?_, fun fgl frg fbg hgl hrg hbg => ?_, fun fc hfc => ?_⟩
  · have hw : (Instr.diff (fr - 2) (fg - 2) (fb - 2)).wf = true := by
      rw [wf_diff_iff]; omega
    simpa [encode] using decode_encode hc hw rest
  · have hw : (Instr.luma (fgl - 32) (frg - 8) (fbg - 8)).wf = true := by
      rw [wf_luma_iff]; omega
    simpa [encode] using decode_encode hc hw rest
  · have hw : (Instr.run (fc + 1)).wf = true := by
      rw [wf_run_iff]; omega
    simpa [encode] using decode_encode hc hw rest

/-! ## From the bytes to the token and back (R93) -/

/-- A byte is determined by its value. -/
theorem u8_eq {b : Byte} {x : Int} (h : x = b.toNat) : u8 x = b := by rw [h, u8_toNat_self]

section
variable {c : Config} {b0 : Byte} {bs rest : List Byte} {i : Instr}

/-! The bytes of the token that is assembled, for each class: the exact tags and the class's quarter fix the bits
that are no operand bits (R87 to R92). -/

theorem encode_of_assemble_rgb (h : assemble .rgb c.tagRgb bs = .ok (i, rest)) :
    i.wf = true ∧ encode c i ++ rest = c.tagRgb :: bs := by
  obtain _ | ⟨r, _ | ⟨g, _ | ⟨b, bs⟩⟩⟩ := bs <;> cases h
  exact ⟨rfl, rfl⟩

theorem encode_of_assemble_rgba (h : assemble .rgba c.tagRgba bs = .ok (i, rest)) :
    i.wf = true ∧ encode c i ++ rest = c.tagRgba :: bs := by
  obtain _ | ⟨r, _ | ⟨g, _ | ⟨b, _ | ⟨a, bs⟩⟩⟩⟩ := bs <;> cases h
  exact ⟨rfl, rfl⟩

theorem encode_of_assemble_diff (h0 : 64 ≤ b0.toNat) (h1 : b0.toNat < 128)
    (h : assemble .diff b0 bs = .ok (i, rest)) : i.wf = true ∧ encode c i ++ rest = b0 :: bs := by
  cases h
  simp only [wf_diff_iff, encode, List.cons_append, List.nil_append, List.cons.injEq, and_true, field]
  exact ⟨by omega, u8_eq (by omega)⟩

theorem encode_of_assemble_luma (h0 : 128 ≤ b0.toNat) (h1 : b0.toNat < 192)
    (h : assemble .luma b0 bs = .ok (i, rest)) : i.wf = true ∧ encode c i ++ rest = b0 :: bs := by
  obtain _ | ⟨b1, bs⟩ := bs <;> cases h
  have hb := b1.isLt
  simp only [wf_luma_iff, encode, List.cons_append, List.nil_append, List.cons.injEq, and_true, field]
  exact ⟨by omega, u8_eq (by omega), u8_eq (by omega)⟩

theorem encode_of_assemble_run (h0 : 192 ≤ b0.toNat) (h1 : b0.toNat < 254)
    (h : assemble .run b0 bs = .ok (i, rest)) : i.wf = true ∧ encode c i ++ rest = b0 :: bs := by
  cases h
  simp only [wf_run_iff, encode, List.cons_append, List.nil_append, List.cons.injEq, and_true, field_low6]
  exact ⟨by omega, u8_eq (by omega)⟩

theorem encode_of_assemble_index (h1 : b0.toNat < 64)
    (h : assemble .index b0 bs = .ok (i, rest)) : i.wf = true ∧ encode c i ++ rest = b0 :: bs := by
  cases h
  simp only [Instr.wf, encode, List.cons_append, List.nil_append, List.cons.injEq, and_true, field_low6,
    Fin.val_ofNat]
  exact ⟨trivial, u8_eq (by omega)⟩

end

/-- Settles O3: the class of the first byte says which token is assembled, and its place says which bits the class
fixes. -/
theorem encodeOfDecodeIsTheBytes : Obligations.EncodeOfDecodeIsTheBytes := by
  unfold Obligations.EncodeOfDecodeIsTheBytes
  intro c hc bs rest i h
  cases bs with
  | nil => cases h
  | cons b0 bs =>
    rw [decode] at h
    obtain ⟨hk, h1⟩ | ⟨hk, h0, h1⟩ | ⟨hk, h0, h1⟩ | ⟨hk, h0, h1⟩ | ⟨hk, rfl⟩ | ⟨hk, rfl⟩ := classify_cases hc b0
    all_goals rw [hk] at h
    · exact encode_of_assemble_index h1 h
    · exact encode_of_assemble_diff h0 h1 h
    · exact encode_of_assemble_luma h0 h1 h
    · exact encode_of_assemble_run h0 h1 h
    · exact encode_of_assemble_rgb h
    · exact encode_of_assemble_rgba h

/-! ## The first-byte map (R85) -/

/-- Five bytes are enough for every class. -/
theorem tokenLength_le (k : TokenClass) : tokenLength k ≤ 5 := by cases k <;> decide

/-- Settles O4: five bytes make a token of the first byte's class, and the six places exclude each other. -/
theorem firstByteMap : Obligations.FirstByteMap := by
  unfold Obligations.FirstByteMap
  intro c hc b0 rest hlen
  obtain ⟨i, hi⟩ := assemble_ok (classify c b0) b0 rest ((tokenLength_le _).trans (by omega))
  have hd : decode c (b0 :: rest) = .ok (i, rest.drop (tokenLength (classify c b0) - 1)) := hi
  have hclass : i.tokenClass = classify c b0 := decode_class hd
  refine ⟨i, by rw [hd, hclass], ?_⟩
  obtain ⟨hrgb, hrgba, hne⟩ := tags_apart hc
  rw [hclass]
  have hval {t : Byte} (h : b0.toNat < 254) (ht : 254 ≤ t.toNat) : b0 ≠ t := fun e => by subst e; omega
  obtain ⟨hk, h1⟩ | ⟨hk, h0, h1⟩ | ⟨hk, h0, h1⟩ | ⟨hk, h0, h1⟩ | ⟨hk, rfl⟩ | ⟨hk, rfl⟩ := classify_cases hc b0
  case inl | inr.inl | inr.inr.inl | inr.inr.inr.inl =>
    simp [hk, hval (by omega) hrgb, hval (by omega) hrgba]; omega
  case inr.inr.inr.inr.inl => simp [hk, hne]; omega
  case inr.inr.inr.inr.inr => simp [hk, hne.symm]; omega

/-- Settles O1: each word is evaluated; they are one or more of each class. -/
theorem specWordsDecodeToTheirTokens : Obligations.SpecWordsDecodeToTheirTokens := by
  unfold Obligations.SpecWordsDecodeToTheirTokens
  decide

end Sys2Proof.Proofs.Codec
end

section
/-! Proofs of the statements on 40_hash_and_shared_update.md: the hash in six bits, and the channel deltas. -/

namespace Sys2Proof.Proofs.Deltas

open Sys2Proof Sys2Proof.Machine

/-- Settles O8: six-bit arithmetic is arithmetic modulo 64, and 64 divides 256. -/
theorem hashInSixBitArithmetic : Obligations.HashInSixBitArithmetic := by
  unfold Obligations.HashInSixBitArithmetic
  intro p
  rw [hash_val, hashSum]
  simp only [BitVec.toNat_add, BitVec.toNat_mul, BitVec.toNat_setWidth, BitVec.ofNat_eq_ofNat, BitVec.toNat_ofNat]
  omega

/-- Settles O9: the signed reading has its range and its residue; application is `u8`, which undoes the delta. -/
theorem channelDeltas : Obligations.ChannelDeltas := by
  unfold Obligations.ChannelDeltas
  refine ⟨fun new old => ?_, fun old d => u8_toNat _, apply_delta⟩
  obtain ⟨hlo, hhi⟩ := s8_range ((new.toNat : Int) - old.toNat)
  have hmod := s8_mod ((new.toNat : Int) - old.toNat)
  rw [delta]
  exact ⟨hlo, hhi, by omega⟩

/-- The signed reading of a number that is in its range is the number itself (00_scope.md R9). -/
theorem s8_of_range {x : Int} (h0 : -128 ≤ x) (h1 : x ≤ 127) : s8 x = x := by
  unfold s8; omega

/-- Where a number is at most 31 out of range, its signed reading is far from LUMA's (R125). -/
theorem s8_of_outside {x : Int} (h0 : -159 ≤ x) (h1 : x ≤ 159) (h : x < -128 ∨ 127 < x) :
    s8 x < -8 ∨ 7 < s8 x := by
  unfold s8; omega

/-- Settles O10: a second difference is at most 32 out of the range of a signed byte; there the reading is far from
LUMA's range, and elsewhere it changes nothing. -/
theorem lumaSecondDifferencesMayWrap : Obligations.LumaSecondDifferencesMayWrap := by
  unfold Obligations.LumaSecondDifferencesMayWrap
  intro r g r' g' hlo hhi d
  have hr : -128 ≤ delta r r' ∧ delta r r' ≤ 127 := s8_range _
  have hd : -159 ≤ d ∧ d ≤ 159 := by omega
  by_cases hin : -128 ≤ d ∧ d ≤ 127
  · rw [s8_of_range hin.1 hin.2]
    exact ⟨Iff.rfl, fun _ _ => rfl⟩
  · have hfar := s8_of_outside hd.1 hd.2 (by omega)
    exact ⟨by omega, by omega⟩

end Sys2Proof.Proofs.Deltas
end

section
/-! Proofs of the statements on whole runs of ENC (42_encoder.md R172; 45_laws.md R335, R338): repeated pixels, the size
of the stream, and the independence of what stood before `start`. -/

namespace Sys2Proof.Proofs.EncoderRuns

open Sys2Proof Sys2Proof.Machine Sys2Proof.Proofs.Encoder Sys2Proof.Proofs.Codec

/-! ## A run is the pixel steps one after the other (R172) -/

section
variable (c : Config) (e : Enc)

@[simp] theorem encPixels_nil : encPixels c [] e = e := rfl

@[simp] theorem encPixels_cons (p : Pixel) (ps : List Pixel) :
    encPixels c (p :: ps) e = encPixels c ps (encPixel c p e) := rfl

theorem encPixels_concat (ps : List Pixel) (p : Pixel) :
    encPixels c (ps ++ [p]) e = encPixel c p (encPixels c ps e) := by simp [encPixels]

end

@[simp] theorem encFinish_tout (c : Config) (e : Enc) : (encFinish c e).tout = e.tout ++ owedRun e := by
  rw [encFinish_eq]

/-- Every pixel step counts one pixel read (R160). -/
@[simp] theorem encPixel_ip (c : Config) (p : Pixel) (e : Enc) : (encPixel c p e).ip = e.ip + 1 := by
  by_cases hp : p = e.prev
  · subst hp
    by_cases h : e.run + 1 = runMax
    · rw [encPixel_prev, countPixel_full h]
    · rw [encPixel_prev, countPixel_below h]
  · exact (encPixel_other hp).ip

/-! ## The token picked for a pixel other than `prev` (R164 to R169) -/

/-- INDEX where the slot holds the pixel, and else the chosen token. -/
def pickedToken (p : Pixel) (e : Enc) : Instr :=
  if e.cache[pixelHash p] = p then .index (pixelHash p) else chooseToken e.prev p

theorem pickedBytes_eq (c : Config) (p : Pixel) (e : Enc) : pickedBytes c p e = encode c (pickedToken p e) := by
  unfold pickedBytes pickedToken
  split <;> rfl

/-- Everything the choice of a token can give, each with its reason (R166 to R169). -/
theorem chooseToken_cases (prev p : Pixel) :
    (p.a ≠ prev.a ∧ chooseToken prev p = .rgba p.r p.g p.b p.a) ∨
    (p.a = prev.a ∧ diffFits (delta p.r prev.r) (delta p.g prev.g) (delta p.b prev.b) = true ∧
      chooseToken prev p = .diff (delta p.r prev.r) (delta p.g prev.g) (delta p.b prev.b)) ∨
    (p.a = prev.a ∧ lumaFits (delta p.r prev.r) (delta p.g prev.g) (delta p.b prev.b) = true ∧
      chooseToken prev p =
        .luma (delta p.g prev.g) (delta p.r prev.r - delta p.g prev.g) (delta p.b prev.b - delta p.g prev.g)) ∨
    (p.a = prev.a ∧ chooseToken prev p = .rgb p.r p.g p.b) := by
  by_cases ha : p.a = prev.a
  · by_cases hd : diffFits (delta p.r prev.r) (delta p.g prev.g) (delta p.b prev.b) = true
    · exact .inr (.inl ⟨ha, hd, chooseToken_diff ha hd⟩)
    by_cases hl : lumaFits (delta p.r prev.r) (delta p.g prev.g) (delta p.b prev.b) = true
    · exact .inr (.inr (.inl ⟨ha, hl, chooseToken_luma ha hd hl⟩))
    · exact .inr (.inr (.inr ⟨ha, chooseToken_rgb ha hd hl⟩))
  · exact .inl ⟨ha, chooseToken_rgba ha⟩

theorem chooseToken_not_run (prev p : Pixel) : (chooseToken prev p).tokenClass ≠ .run := by
  obtain ⟨-, h⟩ | ⟨-, -, h⟩ | ⟨-, -, h⟩ | ⟨-, h⟩ := chooseToken_cases prev p <;> rw [h] <;> nofun

theorem chooseToken_wf (prev p : Pixel) : (chooseToken prev p).wf = true := by
  obtain ⟨-, h⟩ | ⟨-, hd, h⟩ | ⟨-, hl, h⟩ | ⟨-, h⟩ := chooseToken_cases prev p <;> rw [h]
  · rfl
  · rw [diffFits_iff] at hd
    rw [wf_diff_iff]
    omega
  · rw [lumaFits_iff] at hl
    rw [wf_luma_iff]
    omega
  · rfl

theorem pickedToken_not_run (p : Pixel) (e : Enc) : (pickedToken p e).tokenClass ≠ .run := by
  unfold pickedToken
  split
  · nofun
  · exact chooseToken_not_run e.prev p

theorem pickedToken_wf (p : Pixel) (e : Enc) : (pickedToken p e).wf = true := by
  unfold pickedToken
  split
  · rfl
  · exact chooseToken_wf e.prev p

/-! ## Repeated pixels (45_laws.md R335) -/

/-- Pixels equal to `prev` fill one RUN token after another, and the rest is pending. -/
theorem encPixels_replicate_prev (c : Config) {e : Enc} (hrun : e.run = 0) (m : Nat) :
    encPixels c (List.replicate m e.prev) e =
      { e with run := m % 62, tout := e.tout ++ List.replicate (m / 62) 0xFD, ip := e.ip + m } := by
  induction m with
  | zero =>
    obtain ⟨h, status, run, ip, pin, tout⟩ := e
    obtain rfl : run = 0 := hrun
    simp
  | succ m ih =>
    rw [List.replicate_succ', encPixels_concat, ih]
    obtain ⟨hbelow, hfull⟩ := encCountsARepeatedPixel c
      { e with run := m % 62, tout := e.tout ++ List.replicate (m / 62) 0xFD, ip := e.ip + m }
    by_cases h : m % 62 + 1 = 62
    · have hmod : (m + 1) % 62 = 0 := by omega
      have hdiv : (m + 1) / 62 = m / 62 + 1 := by omega
      rw [hfull h, hmod, hdiv, List.replicate_succ', List.append_assoc, Nat.add_assoc]
    · have hmod : (m + 1) % 62 = m % 62 + 1 := by omega
      have hdiv : (m + 1) / 62 = m / 62 := by omega
      rw [hbelow h, hmod, hdiv, Nat.add_assoc]

/-- The byte that a pending count owes, as R335 writes it. -/
theorem owedRun_eq (e : Enc) : owedRun e = if e.run = 0 then [] else [u8 (0xC0 + (e.run : Int) - 1)] := by
  unfold owedRun
  by_cases h : e.run = 0
  · simp [h]
  · rw [if_pos (Nat.pos_of_ne_zero h), if_neg h, add_sub_assoc]

/-- Settles O39: the full tokens are put out on the way, and both `finish` and a pixel that differs put out the rest
first. -/
theorem repeatedPixelsMakeRunTokens : Obligations.RepeatedPixelsMakeRunTokens := by
  unfold Obligations.RepeatedPixelsMakeRunTokens
  intro c m runBytes
  have hafter (e : Enc) (hrun : e.run = 0) :
      (encPixels c (List.replicate m e.prev) e).tout ++ owedRun (encPixels c (List.replicate m e.prev) e) =
        e.tout ++ runBytes := by
    rw [encPixels_replicate_prev c hrun, owedRun_eq, List.append_assoc]
  refine ⟨fun e hrun => ⟨?_, fun p hp => ⟨pickedToken p (encPixels c (List.replicate m e.prev) e),
    pickedToken_not_run _ _, ?_⟩⟩, ?_⟩
  · rw [encFinish_tout, hafter e hrun]
  · have hprev : p ≠ (encPixels c (List.replicate m e.prev) e).prev := by
      rwa [encPixels_replicate_prev c hrun]
    rw [(encPixel_other hprev).tout, hafter e hrun, pickedBytes_eq]
  · exact (encFinish_tout c _).trans (hafter (encStart Enc.reset) rfl)

/-! ## The size of the stream (45_laws.md R338) -/

theorem owedRun_length (e : Enc) : (owedRun e).length = min e.run 1 := by
  rw [owedRun_eq]
  split <;> simp <;> omega

/-- A token has one to five bytes (30_encoding.md R86). -/
theorem encode_length (c : Config) (i : Instr) : 1 ≤ (encode c i).length ∧ (encode c i).length ≤ 5 := by
  cases i <;> simp [encode]

/-- The bounds of R338 on the way, after `n` pixels: the pending count is put on the side of the pixels for the lower
bound, and its owed byte on the side of the bytes for the upper. -/
structure SizeBounds (n : Nat) (e : Enc) : Prop where
  run_le : e.run ≤ 61
  lower  : n ≤ 62 * e.tout.length + e.run
  upper  : e.tout.length + min e.run 1 ≤ 5 * n

/-- A pixel step puts out at most the owed byte and five more, and counts one pixel. -/
theorem encPixel_sizeBounds (c : Config) (p : Pixel) {n : Nat} {e : Enc} (h : SizeBounds n e) :
    SizeBounds (n + 1) (encPixel c p e) := by
  obtain ⟨hrun, hlo, hhi⟩ := h
  by_cases hp : p = e.prev
  · subst hp
    by_cases hfull : e.run + 1 = 62
    · rw [(encCountsARepeatedPixel c e).2 hfull]
      constructor <;> simp only [List.length_append, List.length_singleton] <;> omega
    · rw [(encCountsARepeatedPixel c e).1 hfull]
      constructor <;> simp only <;> omega
  · have he := encPixel_other (c := c) hp
    obtain ⟨hone, hfive⟩ := encode_length c (pickedToken p e)
    have hlen : (encPixel c p e).tout.length = e.tout.length + min e.run 1 + (encode c (pickedToken p e)).length := by
      rw [he.tout, pickedBytes_eq, List.length_append, List.length_append, owedRun_length]
    constructor <;> simp only [hlen, he.run] <;> omega

theorem encPixels_sizeBounds (c : Config) (ps : List Pixel) {n : Nat} {e : Enc} (h : SizeBounds n e) :
    SizeBounds (n + ps.length) (encPixels c ps e) := by
  induction ps generalizing n e with
  | nil => exact h
  | cons p ps ih =>
    rw [List.length_cons, Nat.add_comm ps.length, ← Nat.add_assoc]
    exact ih (encPixel_sizeBounds c p h)

/-- Settles O40: after the last pixel `finish` puts out the owed byte, which closes both bounds. -/
theorem encodedSizeBounds : Obligations.EncodedSizeBounds := by
  unfold Obligations.EncodedSizeBounds
  intro c pixels
  have hstart : SizeBounds 0 (encStart Enc.reset) := ⟨Nat.zero_le _, Nat.zero_le _, Nat.le_refl _⟩
  obtain ⟨hrun, hlo, hhi⟩ := encPixels_sizeBounds c pixels hstart
  rw [encodeTokens, encodeRun, encFinish_tout, List.length_append, owedRun_length]
  omega

/-! ## `PIN` is not looked at by the pixel step (log entry 8) -/

/-- ENC with another `PIN`. -/
def withPin (q : List Pixel) (e : Enc) : Enc := { e with pin := q }

section
variable (c : Config) (q : List Pixel) (e : Enc)

theorem countPixel_withPin : (withPin q e).countPixel c = withPin q (e.countPixel c) := by
  by_cases h : e.run + 1 = runMax
  · rw [countPixel_full h, countPixel_full (e := withPin q e) h]; rfl
  · rw [countPixel_below h, countPixel_below (e := withPin q e) h]; rfl

theorem flushRun_withPin : (withPin q e).flushRun c = withPin q (e.flushRun c) := by
  rw [flushRun_eq, flushRun_eq]; rfl

theorem emitPixel_withPin (p : Pixel) : (withPin q e).emitPixel c p = withPin q (e.emitPixel c p) := by
  unfold Enc.emitPixel
  by_cases h : e.cache[pixelHash p] = p
  · rw [if_pos h, if_pos (show (withPin q e).cache[pixelHash p] = p from h)]; rfl
  · rw [if_neg h, if_neg (show ¬(withPin q e).cache[pixelHash p] = p from h)]; rfl

theorem encPixel_withPin (p : Pixel) : encPixel c p (withPin q e) = withPin q (encPixel c p e) := by
  unfold encPixel
  by_cases h : p = e.prev
  · rw [if_pos h, if_pos (show p = (withPin q e).prev from h), countPixel_withPin]; rfl
  · rw [if_neg h, if_neg (show ¬p = (withPin q e).prev from h), flushRun_withPin, emitPixel_withPin]; rfl

theorem encPixels_withPin (ps : List Pixel) : encPixels c ps (withPin q e) = withPin q (encPixels c ps e) := by
  induction ps generalizing e with
  | nil => rfl
  | cons p ps ih => rw [encPixels_cons, encPixel_withPin, ih, encPixels_cons]

theorem encFinish_withPin : encFinish c (withPin q e) = withPin q (encFinish c e) := by
  rw [encFinish_eq, encFinish_eq]; rfl

/-- `start` sets everything but `PIN` (70_reset_and_hazards.md R300). -/
theorem encStart_eq : encStart e = withPin e.pin (encStart Enc.reset) := rfl

/-- A whole run from any state: all but its `PIN` is that of the run of R172. -/
theorem encFinish_encPixels_encStart (ps : List Pixel) :
    encFinish c (encPixels c ps (encStart e)) = withPin e.pin (encodeRun c ps) := by
  rw [encStart_eq, encPixels_withPin, encFinish_withPin, encodeRun]

end

theorem encResult_encodeRun (c : Config) (q ps : List Pixel) :
    encResult (withPin q (encodeRun c ps)) = some (encodeTokens c ps) := by
  have hdone : (withPin q (encodeRun c ps)).status = .done := by rw [withPin, encodeRun, encFinish_eq]
  exact encResult_of_done hdone

end Sys2Proof.Proofs.EncoderRuns
end

section
/-! Proofs of the statements on tokens and failures in DEC (43_decoder.md; 60_exceptions.md): frames, causes, and the end
of the token steps. -/

namespace Sys2Proof.Proofs.DecoderFrames

open Sys2Proof Sys2Proof.Machine

/-- Settles O19: the token's pixel is the slot's, whose hash is 0, and the update stores it there. -/
theorem indexOfAnUnwrittenSlotClearsSlotZero : Obligations.IndexOfAnUnwrittenSlotClearsSlotZero := by
  unfold Obligations.IndexOfAnUnwrittenSlotClearsSlotZero
  intro k s hk hroom
  obtain ⟨t, ht, hd⟩ := Decoder.exec_index_done s k hroom
  have hzero : pixelHash ⟨0, 0, 0, 0⟩ = 0 := hash_cacheInit
  have hslot : t.dec.cache[(0 : Fin 64)] = ⟨0, 0, 0, 0⟩ := by simpa only [hk, hzero] using hd.slot
  exact ⟨t, ht, hd.prev.trans hk, hslot⟩

/-- Settles O20: a token ends in its tail or in `raise`, and both leave the rest as it was. -/
theorem tokensTouchOnlyTheirRun : Obligations.TokensTouchOnlyTheirRun := by
  unfold Obligations.TokensTouchOnlyTheirRun
  intro i s
  obtain ⟨px, -, h⟩ | ⟨-, h⟩ := exec_cases i s
  · have hd := tail_tokenDone px (tokenPixels i) (tokenLength i.tokenClass) s
    exact ⟨_, h, hd.enc, hd.frm, hd.inputs, hd.npix, hd.tlen, hd.tin⟩
  · have hf := raise_decFailed .runOverrun s
    exact ⟨_, h, hf.enc, hf.frm, hf.inputs, hf.npix, hf.tlen, hf.tin⟩

/-- Settles O22: in DEC it is DecFailed; in the framing layer each field is as `raise` writes or leaves it. -/
theorem raiseEndsTheRun : Obligations.RaiseEndsTheRun := by
  unfold Obligations.RaiseEndsTheRun
  intro k s
  exact ⟨raise_decFailed k s, raise_frm_status k s, raise_frm_cause k s, raise_frm_result k s, raise_frm_hdr k s,
    raise_frm_enc k s, raise_frm_dec k s, raise_frm_inputs k s⟩

/-- Settles O23: the twelve values, evaluated. -/
theorem causeRegisterValues : Obligations.CauseRegisterValues := by
  unfold Obligations.CauseRegisterValues
  decide

/-! ## Where no token step is enabled (R200, R210) -/

theorem decEnabled_eq_false {d : Dec} (h : d.status ≠ .run ∨ d.npix ≤ d.op) : decEnabled d = false := by
  rw [Bool.eq_false_iff, Ne, decEnabled_iff]
  rintro ⟨hrun, hroom⟩
  exact h.elim (fun hne => hne hrun) (fun hle => by omega)

/-- Only DEC's own steps and commands write DEC: the framing layer waits for it (44_file_framing.md R244). -/
theorem frmNext_dec {c : Config} {s t : State} (h : frmNext c s = some t) : t.dec = s.dec := by
  unfold frmNext at h
  repeat' split at h
  all_goals cases h
  all_goals rfl

section
variable {s : State} (hi : s.inputs = []) (he : decEnabled s.dec = false)
include hi he

theorem step_of_frmNext {t : State} (h : frmNext standardConfig s = some t) : step s = .next t := by
  simp [step, stepWith, hi, ownStep, he, h]

theorem step_of_frmNext_none (h : frmNext standardConfig s = none) : step s = .fault .noStepEnabled := by
  simp [step, stepWith, hi, ownStep, he, h]

end

/-- Settles O26: without a token step the machine's own step is the framing layer's, and DEC's turn passes. -/
theorem noTokenStepAfterTheEnd : Obligations.NoTokenStepAfterTheEnd := by
  unfold Obligations.NoTokenStepAfterTheEnd
  constructor
  · intro s t hi hend hstep
    have he := decEnabled_eq_false hend
    cases hf : frmNext standardConfig s with
    | none => rw [step_of_frmNext_none hi he hf] at hstep; cases hstep
    | some u =>
      rw [step_of_frmNext hi he hf] at hstep
      cases hstep
      exact frmNext_dec hf
  · intro s more hi hend
    simp [step, stepWith, hi, decTurn, decEnabled_eq_false hend]

end Sys2Proof.Proofs.DecoderFrames
end

section
/-! Proofs of the statements that compare two runs of DEC (43_decoder.md R210, R212; 70_reset_and_hazards.md R300): the
result depends on the bytes of the stream alone, and not on what stands after the last byte read. -/

namespace Sys2Proof.Proofs.DecoderRuns

open Sys2Proof Sys2Proof.Machine Sys2Proof.Proofs.Decoder Sys2Proof.Proofs.EncoderRuns

/-- The second DEC is as far as the first in its run, and its stream begins with the first one's. -/
structure Follows (d d' : Dec) : Prop where
  history : d'.toHistory = d.toHistory
  status  : d'.status = d.status
  cause   : d'.cause = d.cause
  ip      : d'.ip = d.ip
  op      : d'.op = d.op
  npix    : d'.npix = d.npix
  pout    : d'.pout = d.pout
  tlen_le : d.tlen ≤ d'.tlen
  read    : ∀ a < d.tlen, d'.tin.read a = d.tin.read a

section
variable {c : Config} {d d' : Dec} (h : Follows d d')
include h

theorem decResult_of_follows : decResult d' = decResult d := by
  unfold decResult
  rw [h.status, h.cause, h.pout]

theorem decEnabled_of_follows : decEnabled d' = decEnabled d := by
  unfold decEnabled
  rw [h.status, h.op, h.npix]

theorem memRead_of_follows : memRead d'.tin d'.ip (d.tlen - d.ip) = memRead d.tin d.ip (d.tlen - d.ip) := by
  rw [h.ip]
  refine List.map_congr_left fun i hi => h.read _ ?_
  rw [List.mem_range] at hi
  omega

/-- A token that the shorter stream holds stands in the longer one too. -/
theorem fetch_of_follows {i : Instr} (hf : fetch c d = .ok i) : fetch c d' = .ok i := by
  rw [fetch_eq] at hf
  cases hd : decode c (memRead d.tin d.ip (d.tlen - d.ip)) with
  | error e => rw [hd] at hf; cases hf
  | ok r =>
    obtain ⟨j, rest⟩ := r
    rw [hd] at hf
    cases hf
    have hlen : d'.tlen - d'.ip = (d.tlen - d.ip) + (d'.tlen - d'.ip - (d.tlen - d.ip)) := by
      have h1 := h.tlen_le
      have h2 := h.ip
      omega
    apply fetch_of_decode
    rw [hlen, memRead_add, memRead_of_follows h]
    exact decode_append hd _

/-- Where the streams are equally long, the fetches are the same, failures included. -/
theorem fetch_of_follows_of_tlen (ht : d.tlen = d'.tlen) : fetch c d' = fetch c d := by
  rw [fetch_eq, fetch_eq, ← memRead_of_follows h, ht, h.ip]

theorem tail_follows (px : Pixel) (n len : Nat) : Follows (d.tail px n len) (d'.tail px n len) where
  history := by rw [tail_toHistory, tail_toHistory, h.history]
  status := by rw [tail_status, tail_status, h.op, h.npix, h.status]
  cause := h.cause
  ip := by rw [tail_ip, tail_ip, h.ip]
  op := by rw [tail_op, tail_op, h.op]
  npix := h.npix
  pout := by rw [tail_pout, tail_pout, h.pout]
  tlen_le := h.tlen_le
  read := h.read

end

theorem exec_overruns {i : Instr} {s : State} (h : s.dec.npix < s.dec.op + tokenPixels i) :
    exec i s = .next (raise .dec .runOverrun s) := by
  obtain ⟨px, hfit, -⟩ | ⟨-, he⟩ := exec_cases i s
  · omega
  · exact he

theorem decResult_raise (c : Config) (m : Nat) (k : Cause) (s : State) :
    decResult (decSteps c m (raise .dec k s)).dec = some (.error k) := by
  rw [decSteps_raise]; rfl

/-- The second run comes to the first one's result, except that a longer stream may go on where the first one ends. -/
theorem decResult_decSteps_of_follows (c : Config) (m : Nat) {s s' : State} (h : Follows s.dec s'.dec)
    (hend : s.dec.tlen = s'.dec.tlen ∨ decResult (decSteps c m s).dec ≠ some (.error .truncated)) :
    decResult (decSteps c m s').dec = decResult (decSteps c m s).dec := by
  induction m generalizing s s' with
  | zero => exact decResult_of_follows h
  | succ m ih =>
    by_cases he : decEnabled s.dec = true
    case neg =>
      rw [Bool.not_eq_true] at he
      rw [decSteps_end he, decSteps_end ((decEnabled_of_follows h).trans he), decResult_of_follows h]
    have he' : decEnabled s'.dec = true := (decEnabled_of_follows h).trans he
    obtain ⟨i, px, hf, -, hfit, -, hx, hd⟩ | ⟨hf, hd⟩ | ⟨i, hf, hover, hd⟩ := decToken_cases c s
    all_goals rw [decSteps_next he hd] at hend ⊢
    case inl =>
      have hfit' : s'.dec.op + tokenPixels i ≤ s'.dec.npix := by rwa [h.op, h.npix]
      have hd' : decToken c s' = _ :=
        (decToken_of_fetch (fetch_of_follows h hf)).trans ((hx s' h.history).trans (produce_fits hfit'))
      rw [decSteps_next he' hd']
      exact ih (tail_follows h px _ _) hend
    case inr.inl =>
      rw [decResult_raise] at hend ⊢
      have ht : s.dec.tlen = s'.dec.tlen := hend.resolve_right (· rfl)
      have hd' := decToken_of_fetch_error ((fetch_of_follows_of_tlen h ht).trans hf)
      rw [decSteps_next he' hd', decResult_raise]
    case inr.inr =>
      have hover' : s'.dec.npix < s'.dec.op + tokenPixels i := by rwa [h.op, h.npix]
      have hd' := (decToken_of_fetch (fetch_of_follows h hf)).trans (exec_overruns hover')
      rw [decSteps_next he' hd', decResult_raise, decResult_raise]

theorem follows_refl (d : Dec) : Follows d d := ⟨rfl, rfl, rfl, rfl, rfl, rfl, rfl, Nat.le_refl _, fun _ _ => rfl⟩

/-- `start` after the three inputs leaves nothing of what DEC held (70_reset_and_hazards.md R300). -/
theorem decSetup_eq (t : List Byte) (n : Nat) (d d' : Dec) : decSetup t n d = decSetup t n d' := rfl

/-- Whatever state it starts in, the run of R212 comes to the result of `DecodeTokens`. -/
theorem decResult_decodeRunFrom (c : Config) (t : List Byte) (n : Nat) (s : State) :
    decResult (decodeRunFrom c t n s).dec = decodeTokens c t n := by
  have h : Follows (State.reset.setDec (decSetup t n State.reset.dec)).dec (s.setDec (decSetup t n s.dec)).dec :=
    decSetup_eq t n State.reset.dec s.dec ▸ follows_refl (decSetup t n State.reset.dec)
  exact decResult_decSteps_of_follows c n h (.inl rfl)

/-- Settles O50: DEC's run comes to `DecodeTokens` from every state, and ENC's run differs at most in `PIN`. -/
theorem nothingSurvivesStart : Obligations.NothingSurvivesStart := by
  unfold Obligations.NothingSurvivesStart
  refine ⟨fun c t n s₁ s₂ => ?_, fun c pixels e₁ e₂ => ?_⟩
  · rw [decResult_decodeRunFrom, decResult_decodeRunFrom]
  · rw [encFinish_encPixels_encStart, encFinish_encPixels_encStart, encResult_encodeRun, encResult_encodeRun]

/-- Bytes after a stream do not disturb those of the stream. -/
theorem decSetup_follows (t extra : List Byte) (n : Nat) (d : Dec) :
    Follows (decSetup t n d) (decSetup (t ++ extra) n d) where
  history := rfl
  status := rfl
  cause := rfl
  ip := rfl
  op := rfl
  npix := rfl
  pout := rfl
  tlen_le := by simp [decSetup]
  read a ha := by
    have ha : a < t.length := ha
    simp [decSetup, read_memOfBytes, List.getElem?_append_left ha]

/-- Settles O48: the run on the longer stream follows the run on the shorter, which does not end for want of bytes. -/
theorem unreadBytesAreIgnored : Obligations.UnreadBytesAreIgnored := by
  unfold Obligations.UnreadBytesAreIgnored
  intro c t extra n pixels h
  have hne : decodeTokens c t n ≠ some (.error .truncated) := by rw [h]; nofun
  exact (decResult_decSteps_of_follows c n (decSetup_follows t extra n State.reset.dec) (.inr hne)).trans h

/-! ## Token steps touch DEC alone -/

theorem decSteps_frame (c : Config) (m : Nat) (s : State) :
    (decSteps c m s).enc = s.enc ∧ (decSteps c m s).frm = s.frm ∧ (decSteps c m s).inputs = s.inputs := by
  induction m generalizing s with
  | zero => exact ⟨rfl, rfl, rfl⟩
  | succ m ih =>
    by_cases he : decEnabled s.dec = true
    · obtain ⟨t, ht, henc, hfrm, hin⟩ := decToken_frame c s
      obtain ⟨ienc, ifrm, iin⟩ := ih t
      rw [decSteps_next he ht]
      exact ⟨ienc.trans henc, ifrm.trans hfrm, iin.trans hin⟩
    · rw [decSteps_end (Bool.not_eq_true _ ▸ he)]
      exact ⟨rfl, rfl, rfl⟩

end Sys2Proof.Proofs.DecoderRuns
end

section
/-! Proof of the round trip of tokens (45_laws.md R330, R331): DEC follows ENC, token by token. -/

namespace Sys2Proof.Proofs.RoundTrip

open Sys2Proof Sys2Proof.Machine Sys2Proof.Proofs.Codec Sys2Proof.Proofs.Encoder Sys2Proof.Proofs.EncoderRuns
  Sys2Proof.Proofs.Decoder

/-! ## `prev` and the cache (10_state.md R25, 40_hash_and_shared_update.md R128) -/

theorem history_ext {h h' : History} (hprev : h.prev = h'.prev) (hslot : ∀ k : Fin 64, h.cache[k] = h'.cache[k]) :
    h = h' := by
  obtain ⟨prev, cache⟩ := h
  obtain ⟨prev', cache'⟩ := h'
  have hcache : cache = cache' := Vector.ext fun i hi => hslot ⟨i, hi⟩
  simp_all

/-- The update is fixed by what R128 says of it. -/
theorem eq_update {h h' : History} {p : Pixel} (hprev : h'.prev = p) (hslot : h'.cache[pixelHash p] = p)
    (hother : ∀ k : Fin 64, k ≠ pixelHash p → h'.cache[k] = h.cache[k]) : h' = h.update p := by
  refine history_ext hprev fun k => ?_
  rw [update_cache]
  by_cases hk : k = pixelHash p
  · rw [hk, hslot, store_slot]
  · rw [hother k hk, store_other _ _ k hk]

theorem update_prevHeld (h : History) (p : Pixel) : (h.update p).PrevHeld := store_slot h p

/-- The update with `prev` itself changes nothing where `prev` is in its slot. -/
theorem update_prev_of_prevHeld {h : History} (hh : h.PrevHeld) : h.update h.prev = h :=
  (eq_update rfl hh fun _ _ => rfl).symm

theorem init_prevHeld : History.init.PrevHeld := init_slot _

/-! ## The encoder's side -/

section
variable (c : Config) (e : Enc)

theorem encPixel_other_toHistory {p : Pixel} (hp : p ≠ e.prev) : (encPixel c p e).toHistory = e.toHistory.update p :=
  have he := encPixel_other (c := c) hp
  eq_update he.prev he.slot he.other_slots

theorem encPixel_prev_toHistory : (encPixel c e.prev e).toHistory = e.toHistory := by
  obtain ⟨hbelow, hfull⟩ := encCountsARepeatedPixel c e
  by_cases h : e.run + 1 = 62
  · rw [hfull h]
  · rw [hbelow h]

/-- The run counter is in 0..61 between pixel steps (10_state.md R22). -/
theorem encPixel_run_le (p : Pixel) (h : e.run ≤ 61) : (encPixel c p e).run ≤ 61 := by
  by_cases hp : p = e.prev
  · subst hp
    obtain ⟨hbelow, hfull⟩ := encCountsARepeatedPixel c e
    by_cases h62 : e.run + 1 = 62
    · rw [hfull h62]; exact Nat.zero_le _
    · rw [hbelow h62]; simp only; omega
  · rw [(encPixel_other hp).run]; exact Nat.zero_le _

/-- What ENC has put out stays. -/
theorem encPixel_tout_prefix (p : Pixel) : e.tout <+: (encPixel c p e).tout := by
  by_cases hp : p = e.prev
  · subst hp
    obtain ⟨hbelow, hfull⟩ := encCountsARepeatedPixel c e
    by_cases h62 : e.run + 1 = 62
    · rw [hfull h62]; exact List.prefix_append _ _
    · rw [hbelow h62]
  · rw [(encPixel_other hp).tout, List.append_assoc]; exact List.prefix_append _ _

theorem encPixels_tout_prefix (ps : List Pixel) : e.tout <+: (encPixels c ps e).tout := by
  induction ps generalizing e with
  | nil => exact List.prefix_refl _
  | cons p ps ih => exact (encPixel_tout_prefix c e p).trans (ih _)

end

/-- The byte owed is that of the RUN token of the pending count. -/
theorem owedRun_eq_encode (c : Config) {e : Enc} (h : 0 < e.run) : owedRun e = encode c (.run e.run) := by
  rw [owedRun, if_pos h]; rfl

theorem encode_length_eq {c : Config} (hc : c.Legal) {i : Instr} (hw : i.wf = true) :
    (encode c i).length = tokenLength i.tokenClass := by
  have h := decode_length (decode_encode hc hw [])
  simpa using h

/-! ## The decoder's side: token steps that succeed -/

/-- Some token steps lead from `s` to `s'`, no more than pixels are written (R211). -/
def Reaches (c : Config) (s s' : State) : Prop :=
  ∃ k, s.dec.op + k ≤ s'.dec.op ∧ ∀ m, decSteps c (k + m) s = decSteps c m s'

theorem reaches_refl (c : Config) (s : State) : Reaches c s s := ⟨0, Nat.le_refl _, fun m => by rw [Nat.zero_add]⟩

theorem reaches_trans {c : Config} {s s' s'' : State} (h : Reaches c s s') (h' : Reaches c s' s'') :
    Reaches c s s'' := by
  obtain ⟨k, hk, hs⟩ := h
  obtain ⟨k', hk', hs'⟩ := h'
  exact ⟨k + k', by omega, fun m => by rw [Nat.add_assoc, hs, hs']⟩

theorem reaches_of_decToken {c : Config} {s s' : State} (he : decEnabled s.dec = true) (hd : decToken c s = .next s')
    (hop : s.dec.op + 1 ≤ s'.dec.op) : Reaches c s s' :=
  ⟨1, hop, fun m => by rw [Nat.add_comm, decSteps_next he hd]⟩

/-- A run of `n` pixels that reaches a state with all of them written ends there. -/
theorem decSteps_eq_of_reaches {c : Config} {s s' : State} {n : Nat} (h : Reaches c s s') (hs : RunSound n s'.dec)
    (hop : s'.dec.op = n) : decSteps c n s = s' := by
  obtain ⟨k, hk, hsteps⟩ := h
  have hdone : decEnabled s'.dec = false := by
    have hstatus := hs.status
    rw [if_pos hop] at hstatus
    simp [decEnabled, hstatus]
  have hn : n = k + (n - k) := by omega
  rw [hn, hsteps, decSteps_end hdone]

/-- The token that stands next in the stream is what the fetch gives. -/
theorem fetch_of_stream {c : Config} (hc : c.Legal) {T out : List Byte} {d : Dec} {i : Instr} (hw : i.wf = true)
    (htin : d.tin = memOfBytes T) (htlen : d.tlen = T.length) (hip : d.ip = out.length)
    (hT : out ++ encode c i <+: T) : fetch c d = .ok i := by
  obtain ⟨more, rfl⟩ := hT
  have hrest : memRead d.tin d.ip (d.tlen - d.ip) = encode c i ++ more := by
    rw [htin, htlen, hip, memRead_memOfBytes _ _ _ (by simp), List.append_assoc, List.drop_left]
    exact List.take_of_length_le (by simp)
  exact fetch_of_decode (hrest ▸ decode_encode hc hw more)

/-! ## DEC has read what ENC has put out -/

/-- DEC, in a sound run for `N` pixels on the stream `T`, has read all that ENC has put out in `e` after the pixels
`ps`; it has written them but for the pending ones, and holds ENC's `prev` and cache. -/
structure Tracks (T : List Byte) (N : Nat) (ps : List Pixel) (e : Enc) (s : State) : Prop where
  sound   : RunSound N s.dec
  tin     : s.dec.tin = memOfBytes T
  tlen    : s.dec.tlen = T.length
  history : s.dec.toHistory = e.toHistory
  held    : e.toHistory.PrevHeld
  ip      : s.dec.ip = e.tout.length
  pout    : s.dec.pout ++ List.replicate e.run e.prev = ps

section
variable {c : Config} (hc : c.Legal) {T : List Byte} {N : Nat} {ps ps' : List Pixel} {e e' : Enc} {s : State}
include hc

/-- One token more on both sides: ENC has put out the bytes of `i`, and DEC reads it as pixels `px`. -/
theorem tracks_token {i : Instr} {px : Pixel} (h : Tracks T N ps e s) (hw : i.wf = true) (hpos : 1 ≤ tokenPixels i)
    (hx : exec i s = produce px (tokenPixels i) (tokenLength i.tokenClass) s)
    (hT : e.tout ++ encode c i <+: T) (hps : s.dec.pout ++ List.replicate (tokenPixels i) px = ps')
    (hN : ps'.length ≤ N) (hhist : e'.toHistory = e.toHistory.update px) (htout : e'.tout = e.tout ++ encode c i)
    (hrun : e'.run = 0) : ∃ s', Reaches c s s' ∧ Tracks T N ps' e' s' := by
  have hroom : s.dec.op + tokenPixels i ≤ N := by
    rw [← h.sound.count]
    rwa [← hps, List.length_append, List.length_replicate] at hN
  have hne : s.dec.op ≠ N := by omega
  have hfit : s.dec.op + tokenPixels i ≤ s.dec.npix := h.sound.npix.symm ▸ hroom
  have hd : decToken c s = .next (s.setDec (s.dec.tail px (tokenPixels i) (tokenLength i.tokenClass))) :=
    (decToken_of_fetch (fetch_of_stream hc hw h.tin h.tlen h.ip hT)).trans (hx.trans (produce_fits hfit))
  refine ⟨_, reaches_of_decToken (decEnabled_of_runSound h.sound hne) hd (Nat.add_le_add_left hpos _), ?_⟩
  exact {
    sound := tail_runSound h.sound hne hfit
    tin := h.tin
    tlen := h.tlen
    history := by rw [setDec_dec, tail_toHistory, h.history, hhist]
    held := hhist ▸ update_prevHeld _ _
    ip := by rw [setDec_dec, tail_ip, h.ip, htout, List.length_append, encode_length_eq hc hw]
    pout := by rw [setDec_dec, tail_pout, hrun, List.replicate_zero, List.append_nil, hps] }

/-- The pending pixels, put out and read as a RUN token, where there are any (42_encoder.md R163, R171). -/
theorem tracks_flush (h : Tracks T N ps e s) (hrun : e.run ≤ 62) (hT : e.tout ++ owedRun e <+: T)
    (hN : ps.length ≤ N) : ∃ s', Reaches c s s' ∧ Tracks T N ps (e.flushRun c) s' := by
  rcases Nat.eq_zero_or_pos e.run with h0 | hpos
  · have he : e.flushRun c = e := by simp [Enc.flushRun, h0]
    exact ⟨s, reaches_refl c s, he.symm ▸ h⟩
  · rw [owedRun_eq_encode c hpos] at hT
    have hprev : s.dec.prev = e.prev := congrArg History.prev h.history
    refine tracks_token hc (i := .run e.run) (px := e.prev) h ((wf_run_iff _).2 ⟨hpos, hrun⟩) hpos (hprev ▸ rfl) hT
      h.pout hN ?_ ?_ ?_
    · rw [flushRun_eq, update_prev_of_prevHeld h.held]
    · rw [flushRun_eq, owedRun_eq_encode c hpos]
    · rw [flushRun_eq]

end

theorem tokenPixels_of_not_run {i : Instr} (h : i.tokenClass ≠ .run) : tokenPixels i = 1 := by
  cases i with
  | run n => exact absurd rfl h
  | _ => rfl

/-- Where DEC holds ENC's `prev` and cache, the picked token stands for the pixel it was picked for. -/
theorem exec_pickedToken {p : Pixel} {e : Enc} {s : State} (h : s.dec.toHistory = e.toHistory) :
    exec (pickedToken p e) s = produce p 1 (tokenLength (pickedToken p e).tokenClass) s := by
  have hprev : s.dec.prev = e.prev := congrArg History.prev h
  have hcache : s.dec.cache = e.cache := congrArg History.cache h
  unfold pickedToken
  by_cases hslot : e.cache[pixelHash p] = p
  · rw [if_pos hslot]
    show produce s.dec.cache[pixelHash p] 1 1 s = produce p 1 1 s
    rw [hcache, hslot]
  · rw [if_neg hslot]
    obtain ⟨-, hi⟩ | ⟨ha, -, hi⟩ | ⟨ha, -, hi⟩ | ⟨ha, hi⟩ := chooseToken_cases e.prev p
    all_goals rw [hi]
    · rfl
    · show produce (applyDeltas s.dec.prev _ _ _) 1 1 s = produce p 1 1 s
      simp only [applyDeltas, hprev, apply_delta, ← ha]
    · show produce (applyDeltas s.dec.prev _ _ _) 1 2 s = produce p 1 2 s
      simp only [applyDeltas, hprev, apply_delta, add_sub_cancel, ← ha]
    · show produce ⟨p.r, p.g, p.b, s.dec.prev.a⟩ 1 4 s = produce p 1 4 s
      rw [hprev, ← ha]

section
variable {c : Config} (hc : c.Legal) {T : List Byte} {N : Nat} {ps : List Pixel} {e : Enc} {s : State}
include hc

/-- A pixel equal to `prev`: DEC stands still, or reads the full RUN token. -/
theorem tracks_encPixel_prev (h : Tracks T N ps e s) (hrun : e.run ≤ 61) (hT : (encPixel c e.prev e).tout <+: T)
    (hN : ps.length + 1 ≤ N) : ∃ s', Reaches c s s' ∧ Tracks T N (ps ++ [e.prev]) (encPixel c e.prev e) s' := by
  have hcount : Tracks T N (ps ++ [e.prev]) { e with run := e.run + 1 } s :=
    { h with pout := by rw [List.replicate_succ', ← List.append_assoc, h.pout] }
  obtain ⟨hbelow, hfull⟩ := encCountsARepeatedPixel c e
  by_cases h62 : e.run + 1 = 62
  · rw [hfull h62] at hT ⊢
    have howed : owedRun { e with run := e.run + 1 } = [0xFD] := by rw [owedRun, h62]; rfl
    obtain ⟨s', hr, ht⟩ := tracks_flush hc hcount (Nat.succ_le_succ hrun) (howed.symm ▸ hT) (by simpa using hN)
    rw [flushRun_eq, howed] at ht
    exact ⟨s', hr, { ht with }⟩
  · rw [hbelow h62]
    exact ⟨s, reaches_refl c s, { hcount with }⟩

/-- Another pixel: the pending ones first, then the picked token. -/
theorem tracks_encPixel_other {p : Pixel} (hp : p ≠ e.prev) (h : Tracks T N ps e s) (hrun : e.run ≤ 61)
    (hT : (encPixel c p e).tout <+: T) (hN : ps.length + 1 ≤ N) :
    ∃ s', Reaches c s s' ∧ Tracks T N (ps ++ [p]) (encPixel c p e) s' := by
  have he := encPixel_other (c := c) hp
  rw [he.tout, pickedBytes_eq] at hT
  obtain ⟨s', hr, ht⟩ := tracks_flush hc h (hrun.trans (by decide)) ((List.prefix_append _ _).trans hT) (by omega)
  rw [flushRun_eq] at ht
  have hone : tokenPixels (pickedToken p e) = 1 := tokenPixels_of_not_run (pickedToken_not_run p e)
  have hpout : s'.dec.pout = ps := by simpa using ht.pout
  obtain ⟨s'', hr', ht'⟩ := tracks_token hc (e' := encPixel c p e) (ps' := ps ++ [p]) ht (pickedToken_wf p e) hone.ge
    (hone.symm ▸ exec_pickedToken ht.history) hT (by rw [hone, hpout]; rfl) (by simpa using hN)
    (encPixel_other_toHistory c e hp) (by rw [he.tout, pickedBytes_eq]) he.run
  exact ⟨s'', reaches_trans hr hr', ht'⟩

/-- The pixel steps one after the other. -/
theorem tracks_encPixels (qs : List Pixel) (h : Tracks T N ps e s) (hrun : e.run ≤ 61)
    (hT : (encPixels c qs e).tout <+: T) (hN : ps.length + qs.length ≤ N) :
    ∃ s', Reaches c s s' ∧ Tracks T N (ps ++ qs) (encPixels c qs e) s' ∧ (encPixels c qs e).run ≤ 61 := by
  induction qs generalizing ps e s with
  | nil => exact ⟨s, reaches_refl c s, by simpa using h, hrun⟩
  | cons q qs ih =>
    rw [List.length_cons] at hN
    have hTq : (encPixel c q e).tout <+: T := (encPixels_tout_prefix c _ qs).trans hT
    obtain ⟨s', hr, ht⟩ : ∃ s', Reaches c s s' ∧ Tracks T N (ps ++ [q]) (encPixel c q e) s' := by
      by_cases hq : q = e.prev
      · subst hq; exact tracks_encPixel_prev hc h hrun hTq (by omega)
      · exact tracks_encPixel_other hc hq h hrun hTq (by omega)
    obtain ⟨s'', hr', ht', hrun'⟩ := ih ht (encPixel_run_le c e q hrun) hT (by simp; omega)
    exact ⟨s'', reaches_trans hr hr', by simpa using ht', hrun'⟩

end

/-- `start` on both sides. -/
theorem tracks_start (T : List Byte) (N : Nat) (s : State) :
    Tracks T N [] (encStart Enc.reset) (s.setDec (decSetup T N s.dec)) where
  sound := decSetup_runSound T N s.dec
  tin := rfl
  tlen := rfl
  history := rfl
  held := init_prevHeld
  ip := rfl
  pout := rfl

/-- Settles O51: DEC tracks ENC from `start` on; after `finish` nothing is pending, so all pixels are written, and the
run ends there. -/
theorem tokenRoundTrip : Obligations.TokenRoundTrip := by
  unfold Obligations.TokenRoundTrip
  intro c hc pixels s
  have htout : encodeTokens c pixels = (encPixels c pixels (encStart Enc.reset)).tout ++
      owedRun (encPixels c pixels (encStart Enc.reset)) := encFinish_tout c _
  obtain ⟨s₁, hr₁, ht₁, hrun⟩ := tracks_encPixels hc pixels (tracks_start (encodeTokens c pixels) pixels.length s)
    (Nat.zero_le _) (htout ▸ List.prefix_append _ _) (Nat.le_of_eq (Nat.zero_add _))
  obtain ⟨s₂, hr₂, ht₂⟩ := tracks_flush hc ht₁ (hrun.trans (by decide)) (htout ▸ List.prefix_refl _) (Nat.le_refl _)
  rw [flushRun_eq] at ht₂
  have hpout : s₂.dec.pout = pixels := by simpa using ht₂.pout
  have hop : s₂.dec.op = pixels.length := by rw [← ht₂.sound.count, hpout]
  have hend : decodeRunFrom c (encodeTokens c pixels) pixels.length s = s₂ :=
    decSteps_eq_of_reaches (reaches_trans hr₁ hr₂) ht₂.sound hop
  have hhist : s₂.dec.toHistory = (encodeRun c pixels).toHistory := by
    rw [ht₂.history, encodeRun, encFinish_eq]
  intro d
  have hd : d = s₂.dec := congrArg State.dec hend
  rw [hd]
  exact ⟨by rw [ht₂.sound.status, if_pos hop], hpout, by rw [ht₂.ip, htout], congrArg History.prev hhist,
    congrArg History.cache hhist⟩

end Sys2Proof.Proofs.RoundTrip
end

section
/-! Proofs of the statements on the header's round trip (41_header_codec.md R146) and on files (44_file_framing.md;
45_laws.md R332, R337). -/

namespace Sys2Proof.Proofs.Files

open Sys2Proof Sys2Proof.Machine Sys2Proof.Proofs.Memory Sys2Proof.Proofs.HeaderCodec Sys2Proof.Proofs.DecoderRuns

/-! ## The header -/

/-- `BE32` undoes `unBE32`: four bytes are the digits of the number they stand for (20_memory.md R52). -/
theorem be32_unBe32 (c0 c1 c2 c3 : Byte) : be32 (unBe32 c0 c1 c2 c3) = [c0, c1, c2, c3] := by
  have h0 := c0.isLt; have h1 := c1.isLt; have h2 := c2.isLt; have h3 := c3.isLt
  simp only [be32, unBe32_toNat, List.cons.injEq, and_true]
  refine ⟨?_, ?_, ?_, ?_⟩ <;> apply BitVec.eq_of_toNat_eq <;> rw [BitVec.toNat_ofNat] <;> omega

/-- What a header with legal fields is laid out as (R141). -/
def headerBytes (c : Config) (h : Header) : List Byte :=
  c.magic ++ be32 h.width ++ be32 h.height ++ [h.channels, h.colorspace]

/-- `EncodeHeader` answers exactly that, and exactly for legal fields. -/
theorem encodeHeader_ok_iff (c : Config) (h : Header) (bs : List Byte) :
    encodeHeader c h = .ok bs ↔
      channelsLegal h.channels = true ∧ colorspaceLegal h.colorspace = true ∧ headerBytes c h = bs := by
  by_cases hch : channelsLegal h.channels = true
  · by_cases hcs : colorspaceLegal h.colorspace = true
    · simp [encodeHeader_legal hch hcs, hch, hcs, headerBytes]
    · simp [encodeHeader_badColorspace hch hcs, hcs]
  · simp [encodeHeader_badChannels hch, hch]

/-- `DecodeHeader` answers the fields where all five tests pass (R143). -/
theorem decodeHeader_ok_iff (c : Config) (bs : List Byte) (h : Header) :
    decodeHeader c bs = .ok h ↔
      bs.length = headerLen ∧ bs.take 4 = c.magic ∧ channelsLegal (headerFields bs).channels = true ∧
        colorspaceLegal (headerFields bs).colorspace = true ∧ (headerFields bs).pixelCount ≠ 0 ∧
        headerFields bs = h := by
  by_cases hlen : bs.length = headerLen
  case neg => simp [decodeHeader_hdrLength hlen, hlen]
  by_cases hm : bs.take 4 = c.magic
  case neg => simp [decodeHeader_badMagic hlen hm, hm]
  by_cases hch : channelsLegal (headerFields bs).channels = true
  case neg => simp [decodeHeader_hdrChannels hlen hm hch, hch]
  by_cases hcs : colorspaceLegal (headerFields bs).colorspace = true
  case neg => simp [decodeHeader_hdrColorspace hlen hm hch hcs, hcs]
  by_cases hsize : (headerFields bs).pixelCount = 0
  case pos => simp [decodeHeader_hdrZeroSize hlen hm hch hcs hsize, hsize]
  simp [decodeHeader, hlen, hm, hch, hcs, hsize]

section
variable {c : Config} (hm : c.magic.length = 4) (h : Header)
include hm

theorem headerBytes_length : (headerBytes c h).length = headerLen := by
  simp [headerBytes, be32, headerLen, hm]

theorem take_headerBytes : (headerBytes c h).take 4 = c.magic := by
  simp [headerBytes, ← hm]

/-- The fields of a header's layout are those of the header. -/
theorem headerFields_headerBytes : headerFields (headerBytes c h) = h := by
  have hw := unBe32_extractLsb h.width
  have hh := unBe32_extractLsb h.height
  rw [headerBytes, be32_eq_extractLsb, be32_eq_extractLsb]
  match c.magic, hm with
  | [m0, m1, m2, m3], _ => simp [headerFields, hw, hh]

end

/-- Fourteen bytes that begin with MAGIC are the layout of their own fields. -/
theorem headerBytes_headerFields {c : Config} {bs : List Byte} (hlen : bs.length = headerLen)
    (hm : bs.take 4 = c.magic) : headerBytes c (headerFields bs) = bs := by
  match bs, hlen with
  | [m0, m1, m2, m3, w0, w1, w2, w3, h0, h1, h2, h3, ch, cs], _ =>
    simp [headerBytes, headerFields, be32_unBe32, ← hm]

/-- Settles O43: both sides say that the bytes are the layout of a header with legal fields and pixels. -/
theorem headerRoundTrip : Obligations.HeaderRoundTrip := by
  unfold Obligations.HeaderRoundTrip
  intro c hm hd bytes
  rw [decodeHeader_ok_iff, encodeHeader_ok_iff]
  constructor
  · rintro ⟨hlen, hmagic, hch, hcs, hsize, rfl⟩
    exact ⟨⟨hch, hcs, headerBytes_headerFields hlen hmagic⟩, Nat.pos_of_ne_zero hsize⟩
  · rintro ⟨⟨hch, hcs, rfl⟩, hsize⟩
    rw [headerFields_headerBytes hm]
    exact ⟨headerBytes_length hm hd, take_headerBytes hm hd, hch, hcs, hsize.ne', rfl⟩

/-! ## `Encode` (44_file_framing.md R242) -/

section
variable {c : Config} {img : Image}

theorem encodeChecks_badGeometry (h : img.hdr.pixelCount = 0 ∨ img.pixels.length ≠ img.hdr.pixelCount) :
    encodeChecks c img = .error .badGeometry := by
  unfold encodeChecks
  split
  next => rfl
  next h0 => rw [if_pos (h.resolve_left h0)]

theorem encodeChecks_geometry (hlen : img.pixels.length = img.hdr.pixelCount) (hne : img.pixels ≠ []) :
    encodeChecks c img = encodeHeader c img.hdr := by
  have h0 : img.hdr.pixelCount ≠ 0 := hlen ▸ mt List.length_eq_zero_iff.1 hne
  simp [encodeChecks, h0, hlen]

theorem encodeFile_of_checks_error {k : Cause} (h : encodeChecks c img = .error k) : encodeFile c img = .error k := by
  rw [encodeFile, h]

theorem encodeFile_of_checks_ok {hdrBytes : List Byte} (h : encodeChecks c img = .ok hdrBytes) :
    encodeFile c img = .ok (hdrBytes ++ encodeTokens c img.pixels ++ c.eofMarker) := by
  rw [encodeFile, h]

end

/-- Settles O45: a failed test of the geometry ends `Encode`; past both, the header's own failure does. -/
theorem encodeFailsInOrder : Obligations.EncodeFailsInOrder := by
  unfold Obligations.EncodeFailsInOrder
  intro c img
  refine ⟨fun h => encodeFile_of_checks_error (encodeChecks_badGeometry h), fun hlen hne k hk => ?_⟩
  exact encodeFile_of_checks_error ((encodeChecks_geometry hlen hne).trans hk)

/-- A file of one pixel with a token left over before the marker (V-FILE-12; the spec's decision D7). -/
def leftOverFile : List Byte :=
  [0x71, 0x6F, 0x69, 0x66, 0, 0, 0, 1, 0, 0, 0, 1, 4, 0, 0xFF, 0x0A, 0x14, 0x1E, 0xFF, 0xC1, 0, 0, 0, 0, 0, 0, 0, 1]

/-- Its image. -/
def leftOverImage : Image := ⟨⟨1, 1, 4, 0⟩, [⟨10, 20, 30, 255⟩]⟩

/-- Settles O47: both functions are run on V-FILE-12; the file made of the image lacks the token left over. -/
theorem encodeOfDecodeMayDiffer : Obligations.EncodeOfDecodeMayDiffer := by
  unfold Obligations.EncodeOfDecodeMayDiffer
  refine ⟨leftOverFile, leftOverImage, ?_, ?_⟩
  · decide +kernel
  · decide +kernel

/-! ## `Decode` (44_file_framing.md R244) -/

/-- A file without the marker fails the first test. -/
theorem decodeChecks_noEndMarker {c : Config} {file : List Byte} (h : ¬∃ body, file = body ++ c.eofMarker) :
    decodeChecks c file = .error .noEndMarker := by
  unfold decodeChecks
  dsimp only
  split
  next => rfl
  next =>
    refine if_pos fun hdrop => h ⟨file.take (file.length - c.eofMarker.length), ?_⟩
    exact ((congrArg _ hdrop.symm).trans (List.take_append_drop _ file)).symm

/-! With the marker, the tests go on with the body. -/

section
variable {c : Config} {body : List Byte}

theorem decodeChecks_hdrLength (h : body.length < headerLen) :
    decodeChecks c (body ++ c.eofMarker) = .error .hdrLength := by
  simp [decodeChecks, h]

theorem decodeChecks_of_header_error (hlen : headerLen ≤ body.length) {k : Cause}
    (h : decodeHeader c (body.take headerLen) = .error k) : decodeChecks c (body ++ c.eofMarker) = .error k := by
  simp [decodeChecks, Nat.not_lt.2 hlen, h]

theorem decodeChecks_of_header_ok (hlen : headerLen ≤ body.length) {hd : Header}
    (h : decodeHeader c (body.take headerLen) = .ok hd) :
    decodeChecks c (body ++ c.eofMarker) = .ok (hd, body.drop headerLen) := by
  simp [decodeChecks, Nat.not_lt.2 hlen, h]

end

/-- No test on the header reports a missing marker. -/
theorem decodeHeader_ne_noEndMarker (c : Config) (bs : List Byte) : decodeHeader c bs ≠ .error .noEndMarker := by
  unfold decodeHeader
  repeat' split
  all_goals nofun

theorem decodeChecks_append_marker_ne (c : Config) (body : List Byte) :
    decodeChecks c (body ++ c.eofMarker) ≠ .error .noEndMarker := by
  rcases Nat.lt_or_ge body.length headerLen with hlt | hge
  · rw [decodeChecks_hdrLength hlt]
    nofun
  · have hne := decodeHeader_ne_noEndMarker c (body.take headerLen)
    cases hd : decodeHeader c (body.take headerLen) with
    | error k => rw [decodeChecks_of_header_error hge hd]; rintro ⟨⟩; exact hne hd
    | ok h => rw [decodeChecks_of_header_ok hge hd]; nofun

/-- Everything a DEC run can come to (43_decoder.md R211). -/
theorem decodeTokens_cases (c : Config) (t : List Byte) (n : Nat) :
    (∃ pixels, decodeTokens c t n = some (.ok pixels)) ∨ decodeTokens c t n = some (.error .truncated) ∨
      decodeTokens c t n = some (.error .runOverrun) := by
  unfold decodeTokens decResult
  obtain ⟨hs, -⟩ | ⟨hs, -, hc | hc⟩ := Decoder.everyDecodeRunEnds c t n State.reset
  · exact .inl ⟨_, by rw [hs]⟩
  · exact .inr (.inl (by rw [hs, hc]))
  · exact .inr (.inr (by rw [hs, hc]))

section
variable {c : Config} {file t : List Byte} {h : Header} {k : Cause}

theorem decodeFile_of_checks_error (hk : decodeChecks c file = .error k) : decodeFile c file = some (.error k) := by
  rw [decodeFile, hk]

variable (hok : decodeChecks c file = .ok (h, t))
include hok

theorem decodeFile_of_pixels {pixels : List Pixel} (ht : decodeTokens c t h.pixelCount = some (.ok pixels)) :
    decodeFile c file = some (.ok ⟨h, pixels⟩) := by
  simp [decodeFile, hok, ht]

theorem decodeFile_of_failure (ht : decodeTokens c t h.pixelCount = some (.error k)) :
    decodeFile c file = some (.error k) := by
  simp [decodeFile, hok, ht]

/-- Past the tests, DEC gives the cause (R245). -/
theorem decodeFile_ne_noEndMarker : decodeFile c file ≠ some (.error .noEndMarker) := by
  obtain ⟨pixels, ht⟩ | ht | ht := decodeTokens_cases c t h.pixelCount
  · rw [decodeFile_of_pixels hok ht]; nofun
  · rw [decodeFile_of_failure hok ht]; nofun
  · rw [decodeFile_of_failure hok ht]; nofun

end

/-- Settles O46: without the marker the first test fails; with it no test and no token step reports it missing. -/
theorem decodeRequiresTheEndMarker : Obligations.DecodeRequiresTheEndMarker := by
  unfold Obligations.DecodeRequiresTheEndMarker
  intro c file
  constructor
  · rintro h ⟨body, rfl⟩
    have hne := decodeChecks_append_marker_ne c body
    cases hd : decodeChecks c (body ++ c.eofMarker) with
    | error k =>
      rw [decodeFile_of_checks_error hd] at h
      cases h
      exact hne hd
    | ok r => exact decodeFile_ne_noEndMarker hd h
  · intro h
    exact decodeFile_of_checks_error (decodeChecks_noEndMarker h)

/-! ## The round trip (45_laws.md R332) -/

/-- `DecodeTokens` of `EncodeTokens` is the pixel sequence (R330). -/
theorem decodeTokens_encodeTokens {c : Config} (hc : c.Legal) (pixels : List Pixel) :
    decodeTokens c (encodeTokens c pixels) pixels.length = some (.ok pixels) := by
  obtain ⟨hs, hp, -⟩ := RoundTrip.tokenRoundTrip c hc pixels State.reset
  rw [decodeTokens, decResult, hs, hp]

/-- The tests of `Decode` on what `Encode` puts together. -/
theorem decodeChecks_file {c : Config} {h : Header} {hdrBytes t : List Byte}
    (hd : decodeHeader c hdrBytes = .ok h) : decodeChecks c (hdrBytes ++ t ++ c.eofMarker) = .ok (h, t) := by
  obtain ⟨hlen, -⟩ := (decodeHeader_ok_iff c hdrBytes h).1 hd
  have hge : headerLen ≤ (hdrBytes ++ t).length := by simp [hlen]
  have htake : (hdrBytes ++ t).take headerLen = hdrBytes := by simp [← hlen]
  have hdrop : (hdrBytes ++ t).drop headerLen = t := by simp [← hlen]
  rw [decodeChecks_of_header_ok hge (htake.symm ▸ hd), hdrop]

/-- Settles O52: `Decode` finds the marker and the header of the file, and DEC gives the pixels back. -/
theorem fileRoundTrip : Obligations.FileRoundTrip := by
  unfold Obligations.FileRoundTrip
  rintro c hc ⟨hdr, pixels⟩ hlen hne hch hcs
  rw [← channelsLegal_iff] at hch
  rw [← colorspaceLegal_iff] at hcs
  have henc : encodeHeader c hdr = .ok (headerBytes c hdr) := encodeHeader_legal hch hcs
  have hsize : 0 < hdr.width.toNat * hdr.height.toNat := hlen ▸ List.length_pos_iff.2 hne
  have hdec : decodeHeader c (headerBytes c hdr) = .ok hdr := (headerRoundTrip c hc.1 hdr _).2 ⟨henc, hsize⟩
  refine ⟨_, encodeFile_of_checks_ok ((encodeChecks_geometry hlen hne).trans henc), ?_⟩
  have htokens : decodeTokens c (encodeTokens c pixels) hdr.pixelCount = some (.ok pixels) :=
    (congrArg _ hlen.symm).trans (decodeTokens_encodeTokens hc pixels)
  exact decodeFile_of_pixels (decodeChecks_file hdec) htokens

end Sys2Proof.Proofs.Files
end

section
/-! Proofs of the statements on commands, resets and results (10_state.md R30, R33; 70_reset_and_hazards.md). -/

namespace Sys2Proof.Proofs.Commands

open Sys2Proof Sys2Proof.Machine Sys2Proof.Proofs.Encoder Sys2Proof.Proofs.DecoderFrames

/-! ## Who holds a unit (log entry 10), as it is refused -/

theorem encOwned_eq_true_iff (s : State) : encOwned s = true ↔ ∃ hb, s.frm.phase = .encoding hb := by
  rw [← Bool.not_eq_false, encOwned_iff]
  push Not
  rfl

theorem decFree_eq_false_iff (s : State) :
    decFree s = false ↔ s.dec.status = .run ∨ ∃ h, s.frm.phase = .decoding h := by
  rw [← Bool.not_eq_true, decFree_iff, not_and_or, or_comm]
  push Not
  rfl

/-! ## A command that is refused changes nothing (R304) -/

section
variable {c : Config} {s : State}

theorem cmdEncStart_refused (h : s.enc.status = .run ∨ ∃ hb, s.frm.phase = .encoding hb) : cmdEncStart s = s :=
  if_pos (by rw [← encOwned_eq_true_iff] at h; rcases h with h | h <;> simp [h])

section
variable (h : s.enc.status ≠ .run ∨ ∃ hb, s.frm.phase = .encoding hb)
include h

/-- The test that push and `finish` make. -/
theorem enc_not_in_host_run : (encOwned s || s.enc.status != .run) = true := by
  rw [← encOwned_eq_true_iff] at h
  rcases h with h | h <;> simp [h]

theorem cmdEncPush_refused (p : Pixel) : cmdEncPush c p s = s := if_pos (enc_not_in_host_run h)

theorem cmdEncFinish_refused : cmdEncFinish c s = s := if_pos (enc_not_in_host_run h)

end

section
variable (h : s.dec.status = .run ∨ ∃ hd, s.frm.phase = .decoding hd)
include h

theorem dec_not_free : ¬decFree s = true := by rwa [Bool.not_eq_true, decFree_eq_false_iff]

theorem cmdDecStart_refused : cmdDecStart s = s := if_neg (dec_not_free h)

theorem cmdWriteNpix_refused (n : Nat) : cmdWriteNpix n s = s := if_neg (dec_not_free h)

theorem cmdWriteTlen_refused (n : Nat) : cmdWriteTlen n s = s := if_neg (dec_not_free h)

theorem cmdWriteTin_refused (a : Nat) (bs : List Byte) : cmdWriteTin a bs s = s := if_neg (dec_not_free h)

end

theorem cmdWriteHdr_refused (hd : Header) (h : s.frm.status = .run) : cmdWriteHdr hd s = s := if_pos (by simp [h])

theorem cmdEncode_refused (pixels : List Pixel) (h : s.frm.status = .run ∨ s.enc.status = .run) :
    cmdEncode c pixels s = s := if_pos (by simpa using h)

theorem cmdDecode_refused (file : List Byte) (h : s.frm.status = .run ∨ s.dec.status = .run) :
    cmdDecode c file s = s := if_pos (by simpa using h)

end

/-- Settles O29: each of the ten commands is refused by its own test. -/
theorem commandsOutOfOrderHaveNoEffect : Obligations.CommandsOutOfOrderHaveNoEffect := by
  unfold Obligations.CommandsOutOfOrderHaveNoEffect
  intro s x more hi h
  rw [step_of_cmd hi]
  congr 1
  cases x with
  | encStart => exact cmdEncStart_refused h
  | encPush p => exact cmdEncPush_refused (s := s.setInputs more) h p
  | encFinish => exact cmdEncFinish_refused h
  | decStart => exact cmdDecStart_refused h
  | writeNpix n => exact cmdWriteNpix_refused (s := s.setInputs more) h n
  | writeTlen n => exact cmdWriteTlen_refused (s := s.setInputs more) h n
  | writeTin a bs => exact cmdWriteTin_refused (s := s.setInputs more) h a bs
  | writeHdr hd => exact cmdWriteHdr_refused hd h
  | encode pixels => exact cmdEncode_refused pixels h
  | decode file => exact cmdDecode_refused file h

/-! ## A command that is accepted: the step, as one equation each (R302) -/

section
variable {s : State} (more : List Input)

theorem step_cmd (x : HostCmd) :
    step (s.setInputs (.cmd x :: more)) = .next (hostCommand standardConfig x (s.setInputs more)) := rfl

/-- The first input of a state, written as an input that is put there. -/
theorem step_of_inputs {l : List Input} {o : Host.Outcome State Fault Refusal} (hi : s.inputs = l)
    (h : step (s.setInputs l) = o) : step s = o := by
  subst hi
  exact h

section
variable (hfree : ∀ hb, s.frm.phase ≠ .encoding hb)
include hfree

theorem encOwned_setInputs : encOwned (s.setInputs more) = false := (encOwned_iff _).2 hfree

theorem step_encStart (hrun : s.enc.status ≠ .run) :
    step (s.setInputs (.cmd .encStart :: more)) =
      .next ((s.setEnc (encStart { s.enc with pin := [] })).setInputs more) :=
  (step_cmd more _).trans (congrArg _ (if_neg (by simp [hrun, encOwned_setInputs more hfree])))

theorem step_encPush (p : Pixel) (hrun : s.enc.status = .run) :
    step (s.setInputs (.cmd (.encPush p) :: more)) =
      .next ((s.setEnc (encPixel standardConfig p { s.enc with pin := s.enc.pin ++ [p] })).setInputs more) :=
  (step_cmd more _).trans (congrArg _ (if_neg (by simp [hrun, encOwned_setInputs more hfree])))

theorem step_encFinish (hrun : s.enc.status = .run) :
    step (s.setInputs (.cmd .encFinish :: more)) =
      .next ((s.setEnc (encFinish standardConfig s.enc)).setInputs more) :=
  finishFlushesTheRun.2 (s.setInputs (.cmd .encFinish :: more)) more rfl hrun hfree

end

section
variable (hrun : s.dec.status ≠ .run) (hfree : ∀ h, s.frm.phase ≠ .decoding h)
include hrun hfree

theorem decFree_setInputs : decFree (s.setInputs more) = true := (decFree_iff _).2 ⟨hfree, hrun⟩

theorem step_decStart :
    step (s.setInputs (.cmd .decStart :: more)) = .next ((s.setDec (decStart s.dec)).setInputs more) :=
  (step_cmd more _).trans (congrArg _ (if_pos (decFree_setInputs more hrun hfree)))

theorem step_writeNpix (n : Nat) :
    step (s.setInputs (.cmd (.writeNpix n) :: more)) = .next ((s.setDec { s.dec with npix := n }).setInputs more) :=
  (step_cmd more _).trans (congrArg _ (if_pos (decFree_setInputs more hrun hfree)))

theorem step_writeTlen (n : Nat) :
    step (s.setInputs (.cmd (.writeTlen n) :: more)) = .next ((s.setDec { s.dec with tlen := n }).setInputs more) :=
  (step_cmd more _).trans (congrArg _ (if_pos (decFree_setInputs more hrun hfree)))

theorem step_writeTin (a : Nat) (bs : List Byte) :
    step (s.setInputs (.cmd (.writeTin a bs) :: more)) =
      .next ((s.setDec { s.dec with tin := memWrite s.dec.tin a bs }).setInputs more) :=
  (step_cmd more _).trans (congrArg _ (if_pos (decFree_setInputs more hrun hfree)))

end

section
variable (hfrm : s.frm.status ≠ .run)
include hfrm

theorem step_writeHdr (h : Header) :
    step (s.setInputs (.cmd (.writeHdr h) :: more)) = .next ((s.setFrm { s.frm with hdr := h }).setInputs more) :=
  (step_cmd more _).trans (congrArg _ (if_neg (by simpa using hfrm)))

theorem step_encode (pixels : List Pixel) (henc : s.enc.status ≠ .run) :
    step (s.setInputs (.cmd (.encode pixels) :: more)) =
      .next (beginEncode standardConfig pixels (s.setInputs more)) :=
  (step_cmd more _).trans (congrArg _ (if_neg (by simp [hfrm, henc])))

theorem step_decode (file : List Byte) (hdec : s.dec.status ≠ .run) :
    step (s.setInputs (.cmd (.decode file) :: more)) =
      .next (beginDecode standardConfig file (s.setInputs more)) :=
  (step_cmd more _).trans (congrArg _ (if_neg (by simp [hfrm, hdec])))

end

end

/-- Settles O27: the accepted `start` is `decStart`, field by field. -/
theorem decStartSetsTheResetValues : Obligations.DecStartSetsTheResetValues := by
  unfold Obligations.DecStartSetsTheResetValues
  intro s more hi hrun hfree
  exact ⟨_, step_of_inputs hi (step_decStart more hrun hfree), rfl, init_slot, rfl, rfl, rfl, rfl, rfl, rfl, rfl,
    fun _ => rfl, rfl, rfl, rfl⟩

/-- Settles O28: the accepted `start` is `encStart` with an empty `PIN`, field by field. -/
theorem encStartSetsTheResetValues : Obligations.EncStartSetsTheResetValues := by
  unfold Obligations.EncStartSetsTheResetValues
  intro s more hi hrun hfree
  exact ⟨_, step_of_inputs hi (step_encStart more hfree hrun), rfl, init_slot, rfl, rfl, rfl, rfl, rfl, rfl, rfl, rfl⟩

/-- Settles O30: each write is accepted, and `TIN` reads by the law of multi-byte writes. -/
theorem hostWritesTakeEffect : Obligations.HostWritesTakeEffect := by
  unfold Obligations.HostWritesTakeEffect
  refine ⟨fun s n more hi hrun hfree => step_of_inputs hi (step_writeNpix more hrun hfree n),
    fun s n more hi hrun hfree => step_of_inputs hi (step_writeTlen more hrun hfree n),
    fun s a bs more hi hrun hfree hwf =>
      ⟨_, step_of_inputs hi (step_writeTin more hrun hfree a bs), memWrite_wf hwf a bs, fun x => ?_⟩,
    fun s h more hi hrun => step_of_inputs hi (step_writeHdr more hrun h)⟩
  exact read_memWrite hwf a x bs

/-- Settles O31: the accepted push is the pixel step on ENC with the pixel at the end of `PIN`. -/
theorem pushTakesOnePixelStep : Obligations.PushTakesOnePixelStep := by
  unfold Obligations.PushTakesOnePixelStep
  intro s p more hi hrun hfree
  exact step_of_inputs hi (step_encPush more hfree p hrun)

/-! ## Power-on reset (R301) -/

theorem step_powerOn {s : State} {more : List Input} (hi : s.inputs = .powerOn :: more) :
    step s = .next (powerOnReset (s.setInputs more)) := by
  simp [step, stepWith, hi]

/-- With DEC idle and no operation of the framing layer, nothing is enabled. -/
theorem step_of_idle {s : State} (hi : s.inputs = []) (hdec : s.dec.status = .idle) (hfrm : s.frm.phase = .idle) :
    step s = .fault .noStepEnabled := by
  have he : decEnabled s.dec = false := decEnabled_eq_false (.inl (by rw [hdec]; nofun))
  have hf : frmNext standardConfig s = none := by simp [frmNext, hfrm]
  exact step_of_frmNext_none hi he hf

/-- Settles O59: the fields are as power-on reset writes them, and then neither DEC nor the framing layer has a step. -/
theorem powerOnResetIdlesEveryUnit : Obligations.PowerOnResetIdlesEveryUnit := by
  unfold Obligations.PowerOnResetIdlesEveryUnit
  refine ⟨fun s more hi => ⟨_, step_powerOn hi, rfl, rfl, rfl, rfl, rfl, rfl, rfl, rfl, rfl, fun hmore => ?_⟩,
    rfl, rfl, rfl, rfl, rfl, rfl, rfl, rfl⟩
  exact step_of_idle hmore rfl rfl

/-! ## Results (R303) -/

theorem encResult_eq (e : Enc) : encResult e = if e.status = .done then some e.tout else none := by
  unfold encResult
  cases e.status <;> rfl

section
variable {d : Dec}

theorem decResult_of_unfinished (h : d.status = .idle ∨ d.status = .run) : decResult d = none := by
  unfold decResult
  rcases h with h | h <;> rw [h]

theorem decResult_of_done (h : d.status = .done) : decResult d = some (.ok d.pout) := by
  unfold decResult
  rw [h]

theorem decResult_of_fault {k : Cause} (h : d.status = .fault) (hk : d.cause = some k) :
    decResult d = some (.error k) := by
  unfold decResult
  rw [h, hk]

end

/-- Settles O60: the results of both units, by their status. -/
theorem resultsExistOnlyAtTheEnd : Obligations.ResultsExistOnlyAtTheEnd := by
  unfold Obligations.ResultsExistOnlyAtTheEnd
  exact ⟨encResult_eq, fun _ h => decResult_of_unfinished h, fun _ h => decResult_of_done h,
    fun _ _ h hk => decResult_of_fault h hk⟩

end Sys2Proof.Proofs.Commands
end

section
/-! Proofs of the statements that the machine, step by step, comes to what the whole functions give (42_encoder.md R172,
43_decoder.md R212, 44_file_framing.md R242, R244; 70_reset_and_hazards.md R302). -/

namespace Sys2Proof.Proofs.MachineRuns

open Sys2Proof Sys2Proof.Machine Sys2Proof.Proofs.Encoder Sys2Proof.Proofs.EncoderRuns Sys2Proof.Proofs.Decoder
  Sys2Proof.Proofs.DecoderFrames Sys2Proof.Proofs.DecoderRuns Sys2Proof.Proofs.Files Sys2Proof.Proofs.Commands

/-! ## Runs of the machine -/

/-- `k` steps of the machine lead from `s` to `t`. -/
def Runs (k : Nat) (s t : State) : Prop := core.run k s = .next t

theorem runs_zero (s : State) : Runs 0 s s := rfl

theorem runs_succ {k : Nat} {s t u : State} (h : step s = .next t) (hr : Runs k t u) : Runs (k + 1) s u :=
  (core_run_next h k).trans hr

theorem runs_one {s t : State} (h : step s = .next t) : Runs 1 s t := runs_succ h (runs_zero t)

/-- A run begins with one step. -/
theorem step_of_runs_succ {k : Nat} {s u : State} (h : Runs (k + 1) s u) : ∃ t, step s = .next t ∧ Runs k t u := by
  cases hs : step s with
  | next t => exact ⟨t, rfl, (core_run_next hs k).symm.trans h⟩
  | fault r => simp [Runs, Host.Core.run, show core.step s = .fault r from hs] at h
  | refused r => simp [Runs, Host.Core.run, show core.step s = .refused r from hs] at h

/-- A run goes on where a shorter one has come to. -/
theorem runs_add {k m : Nat} {s t u : State} (h : Runs k s t) (hr : Runs m t u) : Runs (k + m) s u := by
  induction k generalizing s with
  | zero =>
    cases h
    rwa [Nat.zero_add]
  | succ k ih =>
    obtain ⟨s', hs, h'⟩ := step_of_runs_succ h
    rw [Nat.add_right_comm]
    exact runs_succ hs (ih h')

/-- With no input pending, the machine's own steps are the token steps, as long as one is enabled. -/
theorem runs_decSteps (m : Nat) {s : State} (hi : s.inputs = []) : ∃ k, Runs k s (decSteps standardConfig m s) := by
  induction m generalizing s with
  | zero => exact ⟨0, runs_zero s⟩
  | succ m ih =>
    by_cases he : decEnabled s.dec = true
    · obtain ⟨t, ht, -, -, hin⟩ := decToken_frame standardConfig s
      obtain ⟨hrun, hroom⟩ := (decEnabled_iff s.dec).1 he
      obtain ⟨k, hk⟩ := ih (hin.trans hi)
      rw [decSteps_next he ht]
      exact ⟨k + 1, runs_succ ((step_of_running ⟨hi, hrun, hroom⟩).trans ht) hk⟩
    · rw [decSteps_end (Bool.not_eq_true _ ▸ he)]
      exact ⟨0, runs_zero s⟩

/-! ## DEC, command by command -/

/-- What the host writes before `start`: the stream, its length and the size. -/
def loaded (t : List Byte) (n : Nat) (d : Dec) : Dec :=
  { d with tin := memWrite d.tin 0 t, tlen := t.length, npix := n }

/-- Up to the end of the stream, `TIN` reads as if nothing else had been written. -/
theorem loaded_follows {t : List Byte} {d : Dec} (n : Nat) (hwf : d.tin.wf) :
    Follows (decSetup t n d) (decStart (loaded t n d)) where
  history := rfl
  status := rfl
  cause := rfl
  ip := rfl
  op := rfl
  npix := rfl
  pout := rfl
  tlen_le := Nat.le_refl _
  read a ha := by
    have ha : a < t.length := ha
    simp [decSetup, loaded, read_memWrite hwf, read_memOfBytes, ha]

/-- Four steps carry out the four commands. -/
theorem runs_load {s : State} (t : List Byte) (n : Nat) (hrun : s.dec.status ≠ .run)
    (hfree : ∀ h, s.frm.phase ≠ .decoding h) :
    Runs 4 (s.setInputs [.cmd (.writeTin 0 t), .cmd (.writeTlen t.length), .cmd (.writeNpix n), .cmd .decStart])
      ((s.setInputs []).setDec (decStart (loaded t n s.dec))) :=
  runs_succ (step_writeTin _ hrun hfree 0 t) <|
    runs_succ (step_writeTlen (s := s.setDec { s.dec with tin := memWrite s.dec.tin 0 t }) _ hrun hfree t.length) <|
    runs_succ (step_writeNpix (s := s.setDec { loaded t n s.dec with npix := s.dec.npix }) _ hrun hfree n) <|
    runs_one (step_decStart (s := s.setDec (loaded t n s.dec)) [] hrun hfree)

/-- Settles O53: after the four commands DEC follows a DEC that holds the stream alone, and comes to its result. -/
theorem machineDecRunIsDecodeTokens : Obligations.MachineDecRunIsDecodeTokens := by
  unfold Obligations.MachineDecRunIsDecodeTokens
  intro s t n hrun hfree hwf
  obtain ⟨k, hk⟩ := runs_decSteps n (s := (s.setInputs []).setDec (decStart (loaded t n s.dec))) rfl
  obtain ⟨henc, hfrm, hin⟩ := decSteps_frame standardConfig n ((s.setInputs []).setDec (decStart (loaded t n s.dec)))
  refine ⟨4 + k, _, runs_add (runs_load t n hrun hfree) hk, ?_, henc, hfrm, hin⟩
  have hsame := decResult_decSteps_of_follows standardConfig n
    (s := (s.setInputs []).setDec (decSetup t n s.dec))
    (s' := (s.setInputs []).setDec (decStart (loaded t n s.dec))) (loaded_follows n hwf) (.inl rfl)
  exact hsame.trans (decResult_decodeRunFrom standardConfig t n (s.setInputs []))

/-! ## ENC, command by command -/

/-- The commands of a run after `start`. -/
def pushes (ps : List Pixel) : List Input := ps.map (fun p => .cmd (.encPush p)) ++ [.cmd .encFinish]

/-- A step for each push, and one for `finish`. -/
theorem runs_pushes (ps : List Pixel) {s : State} (hrun : s.enc.status = .run)
    (hfree : ∀ hb, s.frm.phase ≠ .encoding hb) :
    Runs (ps.length + 1) (s.setInputs (pushes ps))
      ((s.setInputs []).setEnc
        (withPin (s.enc.pin ++ ps) (encFinish standardConfig (encPixels standardConfig ps s.enc)))) := by
  induction ps generalizing s with
  | nil =>
    rw [List.append_nil, encPixels_nil, ← encFinish_withPin]
    exact runs_one (step_encFinish [] hfree hrun)
  | cons p ps ih =>
    have hpush : encPixel standardConfig p (withPin (s.enc.pin ++ [p]) s.enc) =
        withPin (s.enc.pin ++ [p]) (encPixel standardConfig p s.enc) := encPixel_withPin _ _ _ p
    have hstep := step_encPush (pushes ps) hfree p hrun
    have hrest := ih (s := s.setEnc (encPixel standardConfig p (withPin (s.enc.pin ++ [p]) s.enc)))
      ((encPixel_status _ p _).trans hrun) hfree
    rw [setEnc_enc, hpush, encPixels_withPin, encFinish_withPin] at hrest
    rw [encPixels_cons, List.append_cons]
    exact runs_succ hstep (hpush ▸ hrest)

/-- Settles O54: `start`, the pushes and `finish` are the run of R172 with the pixels in `PIN`. -/
theorem machineEncRunIsEncodeTokens : Obligations.MachineEncRunIsEncodeTokens := by
  unfold Obligations.MachineEncRunIsEncodeTokens
  intro s pixels hrun hfree
  have hstart := step_encStart (pushes pixels) hfree hrun
  have hpushes := runs_pushes pixels (s := s.setEnc (encStart { s.enc with pin := [] })) rfl hfree
  rw [setEnc_enc, encFinish_encPixels_encStart] at hpushes
  exact ⟨_, runs_succ hstart hpushes, encResult_encodeRun standardConfig pixels pixels, rfl, rfl, rfl, rfl⟩

/-! ## `Decode` -/

section
variable {c : Config} {file t : List Byte} {h : Header} {k : Cause} {s : State}

theorem beginDecode_error (hk : decodeChecks c file = .error k) :
    beginDecode c file s = raise .frm k (s.setFrm { s.frm with file := file, result := none }) := by
  simp [beginDecode, hk]

theorem beginDecode_ok (hok : decodeChecks c file = .ok (h, t)) :
    beginDecode c file s =
      (s.setFrm { s.frm with
        file := file, result := none, status := .run, cause := none, phase := .decoding h }).setDec
          (decSetup t h.pixelCount s.dec) := by
  simp [beginDecode, hok]; rfl

variable (hp : s.frm.phase = .decoding h)
include hp

theorem frmNext_decoding_ok {pixels : List Pixel} (hr : decResult s.dec = some (.ok pixels)) :
    frmNext c s = some (s.setFrm { s.frm with status := .done, phase := .idle, result := some ⟨h, pixels⟩ }) := by
  simp [frmNext, hp, hr]

theorem frmNext_decoding_error (hr : decResult s.dec = some (.error k)) : frmNext c s = some (raise .frm k s) := by
  simp [frmNext, hp, hr]

end

/-- A DEC that has a result takes no token step. -/
theorem decEnabled_of_result {d : Dec} {r : Except Cause (List Pixel)} (h : decResult d = some r) :
    decEnabled d = false := by
  refine decEnabled_eq_false (.inl fun hrun => ?_)
  rw [decResult_of_unfinished (.inr hrun)] at h
  cases h

/-- The framing layer with `Decode` in progress, its header read. -/
def decodingFrm (file : List Byte) (h : Header) (f : Framer) : Framer :=
  { f with file := file, result := none, status := .run, cause := none, phase := .decoding h }

/-- Past the tests of `Decode`, the machine comes to a state in which DEC has its result. -/
theorem runs_decode {s : State} {file t : List Byte} {h : Header} (hfrm : s.frm.status ≠ .run)
    (hdec : s.dec.status ≠ .run) (hok : decodeChecks standardConfig file = .ok (h, t)) :
    ∃ k u, Runs k (s.setInputs [.cmd (.decode file)]) u ∧ u.inputs = [] ∧ u.frm = decodingFrm file h s.frm ∧
      decResult u.dec = decodeTokens standardConfig t h.pixelCount := by
  have hstep := step_decode [] hfrm file hdec
  rw [beginDecode_ok hok] at hstep
  obtain ⟨k, hk⟩ := runs_decSteps h.pixelCount
    (s := ((s.setInputs []).setFrm (decodingFrm file h s.frm)).setDec (decSetup t h.pixelCount s.dec)) rfl
  obtain ⟨-, hf, hin⟩ := decSteps_frame standardConfig h.pixelCount
    (((s.setInputs []).setFrm (decodingFrm file h s.frm)).setDec (decSetup t h.pixelCount s.dec))
  exact ⟨k + 1, _, runs_succ hstep hk, hin, hf, decResult_decodeRunFrom standardConfig t _ _⟩

/-- The framing layer's step after DEC's end. -/
theorem step_of_result {s t : State} {r : Except Cause (List Pixel)} (hi : s.inputs = [])
    (hr : decResult s.dec = some r) (h : frmNext standardConfig s = some t) : step s = .next t :=
  step_of_frmNext hi (decEnabled_of_result hr) h

/-- Where DEC fails, the framing layer passes its cause on (log entry 19). -/
theorem runs_decode_failure {s : State} {file t : List Byte} {h : Header} {e : Cause} (hfrm : s.frm.status ≠ .run)
    (hdec : s.dec.status ≠ .run) (hok : decodeChecks standardConfig file = .ok (h, t))
    (ht : decodeTokens standardConfig t h.pixelCount = some (.error e)) :
    ∃ k v, Runs k (s.setInputs [.cmd (.decode file)]) v ∧ v.inputs = [] ∧
      v.frm.status = .fault ∧ v.frm.cause = some e ∧ v.frm.result = none := by
  obtain ⟨k, u, hrun, hi, hu, hres⟩ := runs_decode hfrm hdec hok
  rw [ht] at hres
  have hphase : u.frm.phase = .decoding h := by rw [hu]; rfl
  have hlast := step_of_result hi hres (frmNext_decoding_error hphase hres)
  exact ⟨k + 1, _, runs_add hrun (runs_one hlast), hi, rfl, rfl, rfl⟩

/-- Where DEC is DONE, the framing layer returns the image. -/
theorem runs_decode_pixels {s : State} {file t : List Byte} {h : Header} {pixels : List Pixel}
    (hfrm : s.frm.status ≠ .run) (hdec : s.dec.status ≠ .run) (hok : decodeChecks standardConfig file = .ok (h, t))
    (ht : decodeTokens standardConfig t h.pixelCount = some (.ok pixels)) :
    ∃ k v, Runs k (s.setInputs [.cmd (.decode file)]) v ∧ v.inputs = [] ∧
      v.frm.status = .done ∧ v.frm.cause = none ∧ v.frm.result = some ⟨h, pixels⟩ := by
  obtain ⟨k, u, hrun, hi, hu, hres⟩ := runs_decode hfrm hdec hok
  rw [ht] at hres
  have hphase : u.frm.phase = .decoding h := by rw [hu]; rfl
  have hcause : u.frm.cause = none := by rw [hu]; rfl
  have hlast := step_of_result hi hres (frmNext_decoding_ok hphase hres)
  exact ⟨k + 1, _, runs_add hrun (runs_one hlast), hi, rfl, hcause, rfl⟩

/-- Settles O55: a failed test raises at once; otherwise DEC runs to its result, and the framing layer's step after it
makes the image of it or passes its cause on. -/
theorem machineDecodeIsDecode : Obligations.MachineDecodeIsDecode := by
  unfold Obligations.MachineDecodeIsDecode
  intro s file hfrm hdec
  cases hchecks : decodeChecks standardConfig file with
  | error e =>
    have hstep := step_decode [] hfrm file hdec
    rw [beginDecode_error hchecks] at hstep
    rw [decodeFile_of_checks_error hchecks]
    exact ⟨1, _, runs_one hstep, rfl, rfl, rfl, rfl⟩
  | ok r =>
    obtain ⟨h, t⟩ := r
    obtain ⟨pixels, ht⟩ | ht | ht := decodeTokens_cases standardConfig t h.pixelCount
    · rw [decodeFile_of_pixels hchecks ht]
      exact runs_decode_pixels hfrm hdec hchecks ht
    · rw [decodeFile_of_failure hchecks ht]
      exact runs_decode_failure hfrm hdec hchecks ht
    · rw [decodeFile_of_failure hchecks ht]
      exact runs_decode_failure hfrm hdec hchecks ht

/-! ## `Encode` -/

section
variable {c : Config} {pixels : List Pixel} {s : State}

theorem beginEncode_error {k : Cause} (hk : encodeChecks c ⟨s.frm.hdr, pixels⟩ = .error k) :
    beginEncode c pixels s = raise .frm k (s.setFrm { s.frm with file := [], result := none }) := by
  simp [beginEncode, hk]

theorem beginEncode_ok {hb : List Byte} (hok : encodeChecks c ⟨s.frm.hdr, pixels⟩ = .ok hb) :
    beginEncode c pixels s =
      (s.setFrm { s.frm with
        file := [], result := none, status := .run, cause := none, phase := .encoding hb }).setEnc
          (encStart { s.enc with pin := pixels }) := by
  simp [beginEncode, hok]; rfl

variable {hb : List Byte} (hp : s.frm.phase = .encoding hb)
include hp

theorem frmNext_encoding_pixel {p : Pixel} (hrun : s.enc.status = .run) (hpin : s.enc.pin[s.enc.ip]? = some p) :
    frmNext c s = some (s.setEnc (encPixel c p s.enc)) := by
  simp [frmNext, hp, hrun, hpin]

theorem frmNext_encoding_finish (hrun : s.enc.status = .run) (hpin : s.enc.pin[s.enc.ip]? = none) :
    frmNext c s = some (s.setEnc (encFinish c s.enc)) := by
  simp [frmNext, hp, hrun, hpin]

theorem frmNext_encoding_done (hdone : s.enc.status = .done) :
    frmNext c s = some (s.setFrm { s.frm with
      status := .done, phase := .idle, file := hb ++ s.enc.tout ++ c.eofMarker }) := by
  simp [frmNext, hp, hdone]

end

/-- A state whose pending inputs are turns of the framing layer. -/
def withTurns (m : Nat) (s : State) : State := s.setInputs (List.replicate m .frmTurn)

theorem step_withTurns {m : Nat} {s t : State} (h : frmNext standardConfig (withTurns m s) = some t) :
    step (withTurns (m + 1) s) = .next t := by
  have hturn : frmTurn standardConfig (withTurns m s) = .next t := by rw [frmTurn, h]
  exact hturn

theorem step_withTurns_none {m : Nat} {s : State} (h : frmNext standardConfig (withTurns m s) = none) :
    step (withTurns (m + 1) s) = .next (withTurns m s) := by
  have hturn : frmTurn standardConfig (withTurns m s) = .next (withTurns m s) := by rw [frmTurn, h]
  exact hturn

/-- Turns of an idle framing layer pass. -/
theorem runs_idle_turns {s : State} (hp : s.frm.phase = .idle) (m : Nat) : Runs m (withTurns m s) (withTurns 0 s) := by
  induction m with
  | zero => exact runs_zero _
  | succ m ih =>
    have hnone : frmNext standardConfig (withTurns m s) = none := by simp [frmNext, withTurns, hp]
    exact runs_succ (step_withTurns_none hnone) ih

theorem encPixel_pin (c : Config) (p : Pixel) (e : Enc) : (encPixel c p e).pin = e.pin := by
  have h : encPixel c p e = withPin e.pin (encPixel c p e) := encPixel_withPin c e.pin e p
  rw [h]
  rfl

/-- A turn for each pixel that is left in `PIN`, and one for `finish`. -/
theorem runs_encode_turns {hb : List Byte} (qs : List Pixel) (m : Nat) {s : State}
    (hp : s.frm.phase = .encoding hb) (hrun : s.enc.status = .run) (hleft : s.enc.pin.drop s.enc.ip = qs) :
    Runs (qs.length + 1) (withTurns (m + qs.length + 1) s)
      (withTurns m (s.setEnc (encFinish standardConfig (encPixels standardConfig qs s.enc)))) := by
  have hnext : s.enc.pin[s.enc.ip]? = qs.head? := by rw [← hleft, List.head?_drop]
  induction qs generalizing s with
  | nil =>
    have hf := frmNext_encoding_finish (c := standardConfig) (s := withTurns m s) hp hrun hnext
    exact runs_one (step_withTurns hf)
  | cons q qs ih =>
    have hf := frmNext_encoding_pixel (c := standardConfig) (s := withTurns (m + qs.length + 1) s) hp hrun hnext
    have hrun' : (encPixel standardConfig q s.enc).status = .run := (encPixel_status _ q _).trans hrun
    have hleft' : (encPixel standardConfig q s.enc).pin.drop (encPixel standardConfig q s.enc).ip = qs := by
      rw [encPixel_pin, encPixel_ip, ← List.drop_drop, hleft]
      rfl
    have hrest := ih (s := s.setEnc (encPixel standardConfig q s.enc)) hp hrun' hleft'
      (by rw [setEnc_enc, ← hleft', List.head?_drop])
    exact runs_succ (step_withTurns hf) hrest

/-- The framing layer with `Encode` in progress, its header bytes made. -/
def encodingFrm (hb : List Byte) (f : Framer) : Framer :=
  { f with file := [], result := none, status := .run, cause := none, phase := .encoding hb }

/-- From an accepted `Encode` on: a turn for each pixel, one for `finish` and one for the file. -/
theorem runs_encode (s : State) (pixels : List Pixel) (hb : List Byte) :
    ∃ t, Runs (pixels.length + 2) (withTurns (pixels.length + 2)
        ((s.setFrm (encodingFrm hb s.frm)).setEnc (encStart (withPin pixels s.enc)))) t ∧
      t.inputs = [] ∧ t.dec = s.dec ∧ t.frm.status = .done ∧ t.frm.cause = none ∧
      t.frm.file = hb ++ encodeTokens standardConfig pixels ++ standardConfig.eofMarker := by
  have hturns := runs_encode_turns pixels 1 (s := (s.setFrm (encodingFrm hb s.frm)).setEnc
    (encStart (withPin pixels s.enc))) rfl rfl rfl
  rw [setEnc_enc, encFinish_encPixels_encStart, Nat.add_comm 1] at hturns
  have hdone : (withPin pixels (encodeRun standardConfig pixels)).status = .done := by
    rw [withPin, encodeRun, encFinish_eq]
  have hfile := frmNext_encoding_done (c := standardConfig) (hb := hb) (s := withTurns 0
    ((s.setFrm (encodingFrm hb s.frm)).setEnc (withPin pixels (encodeRun standardConfig pixels)))) rfl hdone
  have hall : Runs (pixels.length + 1 + 1) _ _ := runs_add hturns (runs_one (step_withTurns hfile))
  exact ⟨_, hall, rfl, rfl, rfl, rfl, rfl⟩

/-- Settles O56: a failed test raises and the turns pass; otherwise the turns make the run of R172 and put its result
between header and marker. -/
theorem machineEncodeIsEncode : Obligations.MachineEncodeIsEncode := by
  unfold Obligations.MachineEncodeIsEncode
  intro s pixels hfrm henc
  have hstep := step_encode (List.replicate (pixels.length + 2) .frmTurn) hfrm pixels henc
  cases hchecks : encodeChecks standardConfig ⟨s.frm.hdr, pixels⟩ with
  | error e =>
    have hbegin := beginEncode_error (s := withTurns (pixels.length + 2) s) hchecks
    have hidle := runs_idle_turns
      (s := raise .frm e (s.setFrm { s.frm with file := [], result := none })) rfl (pixels.length + 2)
    rw [encodeFile_of_checks_error hchecks]
    exact ⟨_, runs_succ (hstep.trans (congrArg _ hbegin)) hidle, rfl, rfl, rfl, rfl, rfl⟩
  | ok hb =>
    have hbegin := beginEncode_ok (s := withTurns (pixels.length + 2) s) hchecks
    obtain ⟨t, ht, hend⟩ := runs_encode s pixels hb
    rw [encodeFile_of_checks_ok hchecks]
    exact ⟨t, runs_succ (hstep.trans (congrArg _ hbegin)) ht, hend⟩

end Sys2Proof.Proofs.MachineRuns
end

section
/-! Proofs of the statements on the invariant (10_state.md R22 to R26, R29; 42_encoder.md R173): every unit's own
operations keep its part, and every step of the machine is made of them. -/

namespace Sys2Proof.Proofs.Invariant

open Sys2Proof Sys2Proof.Machine Sys2Proof.Proofs.Encoder Sys2Proof.Proofs.EncoderRuns Sys2Proof.Proofs.RoundTrip
  Sys2Proof.Proofs.MachineRuns

/-! ## The cache content invariant (10_state.md R24) -/

theorem init_slotsHold : History.init.SlotsHold := fun k => .inl (init_slot k)

/-- An update writes a pixel into its own slot. -/
theorem update_slotsHold {h : History} (hs : h.SlotsHold) (p : Pixel) : (h.update p).SlotsHold := by
  intro k
  by_cases hk : k = pixelHash p
  · subst hk
    exact .inr (congrArg pixelHash (store_slot h p))
  · have hother : (h.update p).cache[k] = h.cache[k] := store_other h p k hk
    rw [hother]
    exact hs k

/-! ## ENC -/

section
variable {c : Config} {p : Pixel} {e : Enc}

theorem enc_inv_of_idle (h : e.status = .idle) : e.Inv := by
  constructor <;> simp [h]

theorem encStart_inv (e : Enc) : (encStart e).Inv where
  not_fault := nofun
  slots_hold _ := init_slotsHold
  prev_held _ := init_prevHeld
  run_le _ := Nat.zero_le _
  ip_le _ := Nat.zero_le _
  run_done := nofun

theorem append_pin_inv (h : e.Inv) : Enc.Inv { e with pin := e.pin ++ [p] } :=
  { h with ip_le := fun hs => (h.ip_le hs).trans (by simp) }

/-- A pixel step keeps the history as it is, or updates it. -/
theorem encPixel_toHistory (c : Config) (p : Pixel) (e : Enc) :
    (encPixel c p e).toHistory = e.toHistory ∨ (encPixel c p e).toHistory = e.toHistory.update p := by
  by_cases hp : p = e.prev
  · subst hp
    exact .inl (encPixel_prev_toHistory c e)
  · exact .inr (encPixel_other_toHistory c e hp)

/-- A pixel step in a run, for a pixel that stands in `PIN`. -/
theorem encPixel_inv (h : e.Inv) (hrun : e.status = .run) (hip : e.ip < e.pin.length) : (encPixel c p e).Inv where
  not_fault := by rw [encPixel_status]; exact h.not_fault
  slots_hold _ := by
    rcases encPixel_toHistory c p e with hh | hh <;> rw [hh]
    · exact h.slots_hold (.inl hrun)
    · exact update_slotsHold (h.slots_hold (.inl hrun)) p
  prev_held _ := by
    rcases encPixel_toHistory c p e with hh | hh <;> rw [hh]
    · exact h.prev_held (.inl hrun)
    · exact update_prevHeld _ p
  run_le _ := encPixel_run_le c e p (h.run_le (.inl hrun))
  ip_le _ := by rw [encPixel_ip, encPixel_pin]; exact hip
  run_done hd := by rw [encPixel_status, hrun] at hd; cases hd

theorem encFinish_inv (h : e.Inv) (hrun : e.status = .run) : (encFinish c e).Inv := by
  rw [encFinish_eq]
  exact {
    not_fault := nofun
    slots_hold := fun _ => h.slots_hold (.inl hrun)
    prev_held := fun _ => h.prev_held (.inl hrun)
    run_le := fun _ => Nat.zero_le _
    ip_le := fun _ => h.ip_le (.inl hrun)
    run_done := fun _ => rfl }

end

/-! ## DEC -/

section
variable {d : Dec}

theorem dec_inv_of_idle (hs : d.status = .idle) (hc : d.cause = none) (hp : d.pout = []) (hm : d.tin.wf) : d.Inv := by
  refine ⟨hm, ?_, ?_, ?_, ?_, ?_, ?_, ?_⟩ <;> simp [hs, hc, hp]

theorem decStart_inv (hm : d.tin.wf) : (decStart d).Inv where
  tin_wf := hm
  cause_iff := by rw [decStart_status, decStart_cause]; split <;> simp
  slots_hold _ := init_slotsHold
  prev_held _ := init_prevHeld
  op_counts _ := rfl
  ip_le _ := Nat.zero_le _
  op_lt hr := by
    rw [decStart_status] at hr
    split at hr
    next => cases hr
    next h0 => exact Nat.pos_of_ne_zero h0
  no_output _ := rfl

theorem decSetup_inv (t : List Byte) (n : Nat) (d : Dec) : (decSetup t n d).Inv := decStart_inv (memOfBytes_wf t)

/-- The tail of a token that fits the stream and the output. -/
theorem tail_inv {px : Pixel} {n len : Nat} (h : d.Inv) (hrun : d.status = .run) (hfit : d.op + n ≤ d.npix)
    (hip : d.ip + len ≤ d.tlen) : (d.tail px n len).Inv where
  tin_wf := h.tin_wf
  cause_iff := by
    have hc : d.cause = none := by simpa [hrun] using h.cause_iff
    rw [tail_status, tail_cause, hrun, hc]
    split <;> simp
  slots_hold _ := update_slotsHold (h.slots_hold (.inl hrun)) px
  prev_held _ := update_prevHeld _ px
  op_counts _ := by rw [tail_op, tail_pout, List.length_append, List.length_replicate, h.op_counts (.inl hrun)]
  ip_le _ := hip
  op_lt hr := by
    rw [tail_status] at hr
    split at hr
    next => cases hr
    next hne => exact Nat.lt_of_le_of_ne hfit hne
  no_output hs := by
    rw [tail_status, hrun] at hs
    split at hs <;> simp at hs

/-- What the host writes outside a run is bound to nothing but the canonical form of `TIN`. -/
theorem host_write_inv (h : d.Inv) (hrun : d.status ≠ .run) (n l : Nat) {m : Memory} (hm : m.wf) :
    Dec.Inv { d with npix := n, tlen := l, tin := m } :=
  { h with
    tin_wf := hm
    ip_le := fun hr => absurd hr hrun
    op_lt := fun hr => absurd hr hrun }

end

theorem raise_dec_inv {s : State} (k : Cause) (hm : s.dec.tin.wf) : (raise .dec k s).dec.Inv := by
  refine ⟨hm, ?_, ?_, ?_, ?_, ?_, ?_, ?_⟩ <;> simp

/-! ## The framing layer -/

section
variable {f : Framer}

/-- An operation in progress is at RUN, so without a cause. -/
theorem framer_running (h : f.Inv) (hp : f.phase ≠ .idle) : f.status = .run ∧ f.cause = none := by
  have hrun := h.phase_iff.2 hp
  have hcause := h.cause_iff
  simp_all

/-- The framing layer at DONE. -/
theorem framer_inv_of_done (hs : f.status = .done) (hc : f.cause = none) (hp : f.phase = .idle) : f.Inv := by
  constructor <;> simp [hs, hc, hp]

/-- The framing layer without an operation and a result, at IDLE or at FAULT with its cause. -/
theorem framer_inv_of_no_result (hs : (f.status = .idle ∧ f.cause = none) ∨ (f.status = .fault ∧ f.cause ≠ none))
    (hp : f.phase = .idle) (hr : f.result = none) : f.Inv := by
  obtain ⟨hs, hc⟩ | ⟨hs, hc⟩ := hs <;> constructor <;> simp [hs, hc, hp, hr]

/-- The framing layer in the middle of an operation. -/
theorem framer_inv_of_run (hs : f.status = .run) (hc : f.cause = none) (hp : f.phase ≠ .idle)
    (hr : f.result = none) : f.Inv := by
  constructor <;> simp [hs, hc, hp, hr]

end

/-! ## The whole machine, when one unit is replaced -/

section
variable {s : State} (h : s.Inv)
include h

theorem setInputs_inv (l : List Input) : (s.setInputs l).Inv := { h with }

theorem setEnc_inv {e : Enc} (he : e.Inv) (hst : e.status = .run ∨ e.status = .done) : (s.setEnc e).Inv :=
  { h with enc := he, encoding := fun _ _ => hst }

theorem setDec_inv {d : Dec} (hd : d.Inv)
    (hst : ∀ hdr, s.frm.phase = .decoding hdr → d.status ≠ .idle ∧ d.npix = hdr.pixelCount) : (s.setDec d).Inv :=
  { h with dec := hd, decoding := hst }

/-- DEC, while `Decode` does not hold it. -/
theorem setDec_inv_of_free {d : Dec} (hd : d.Inv) (hfree : ∀ hdr, s.frm.phase ≠ .decoding hdr) : (s.setDec d).Inv :=
  setDec_inv h hd fun hdr hp => absurd hp (hfree hdr)

theorem setFrm_inv {f : Framer} (hf : f.Inv) (hp : f.phase = .idle) : (s.setFrm f).Inv :=
  { h with
    frm := hf
    encoding := fun hb he => by cases hp.symm.trans he
    decoding := fun hdr he => by cases hp.symm.trans he }

/-- `raise` in the framing layer ends its operation. -/
theorem raise_frm_inv (k : Cause) : (raise .frm k s).Inv :=
  setFrm_inv h (framer_inv_of_no_result (.inr ⟨rfl, nofun⟩) rfl rfl) rfl

end

/-! ## Every step -/

section
variable {c : Config} {s t : State} (h : s.Inv)
include h

/-- The token step: the tail, or a failure. -/
theorem decToken_inv (he : decEnabled s.dec = true) (ht : decToken c s = .next t) : t.Inv := by
  obtain ⟨hrun, -⟩ := (decEnabled_iff s.dec).1 he
  have hfail (k : Cause) : (raise .dec k s).Inv :=
    { h with
      dec := raise_dec_inv k h.dec.tin_wf
      decoding := fun hdr hp => ⟨nofun, (h.decoding hdr hp).2⟩ }
  obtain ⟨i, px, -, -, hfit, hip, -, hd⟩ | ⟨-, hd⟩ | ⟨i, -, -, hd⟩ := decToken_cases c s
  all_goals cases hd.symm.trans ht
  · refine setDec_inv h (tail_inv h.dec hrun hfit hip) fun hdr hp => ⟨?_, (h.decoding hdr hp).2⟩
    rw [tail_status, hrun]
    split <;> nofun
  · exact hfail _
  · exact hfail _

/-- The framing layer's own step: a pixel or `finish` for ENC, the file, the image, or DEC's cause. -/
theorem frmNext_inv (ht : frmNext c s = some t) : t.Inv := by
  unfold frmNext at ht
  split at ht
  next => cases ht
  next hb hp =>
    obtain ⟨-, hcause⟩ := framer_running h.frm (by rw [hp]; nofun)
    split at ht
    next hrun =>
      split at ht
      next p hpin =>
        cases ht
        have hip : s.enc.ip < s.enc.pin.length := (List.getElem?_eq_some_iff.1 hpin).1
        exact setEnc_inv h (encPixel_inv h.enc hrun hip) (.inl ((encPixel_status c p _).trans hrun))
      next =>
        cases ht
        exact setEnc_inv h (encFinish_inv h.enc hrun) (.inr rfl)
    next => cases ht; exact setFrm_inv h (framer_inv_of_done rfl hcause rfl) rfl
    next => cases ht
    next => cases ht
  next hdr hp =>
    obtain ⟨-, hcause⟩ := framer_running h.frm (by rw [hp]; nofun)
    split at ht
    next => cases ht; exact setFrm_inv h (framer_inv_of_done rfl hcause rfl) rfl
    next => cases ht; exact raise_frm_inv h _
    next => cases ht

/-- `Encode`: a failed test raises, and otherwise ENC is started while the framing layer goes to RUN. -/
theorem beginEncode_inv (pixels : List Pixel) : (beginEncode c pixels s).Inv := by
  cases hchecks : encodeChecks c ⟨s.frm.hdr, pixels⟩ with
  | error k =>
    rw [beginEncode_error hchecks]
    exact setFrm_inv (s := s) h (framer_inv_of_no_result (.inr ⟨rfl, nofun⟩) rfl rfl) rfl
  | ok hb =>
    rw [beginEncode_ok hchecks]
    exact {
      enc := encStart_inv _
      dec := h.dec
      frm := framer_inv_of_run rfl rfl nofun rfl
      encoding := fun _ _ => .inl rfl
      decoding := nofun }

/-- `Decode`: a failed test raises, and otherwise DEC is started for the header's size. -/
theorem beginDecode_inv (file : List Byte) : (beginDecode c file s).Inv := by
  cases hchecks : decodeChecks c file with
  | error k =>
    rw [beginDecode_error hchecks]
    exact setFrm_inv (s := s) h (framer_inv_of_no_result (.inr ⟨rfl, nofun⟩) rfl rfl) rfl
  | ok r =>
    obtain ⟨hdr, toks⟩ := r
    rw [beginDecode_ok hchecks]
    have hst : (decSetup toks hdr.pixelCount s.dec).status ≠ .idle := by
      rw [decSetup, decStart_status]
      split <;> nofun
    exact {
      enc := h.enc
      dec := decSetup_inv toks hdr.pixelCount s.dec
      frm := framer_inv_of_run rfl rfl nofun rfl
      encoding := nofun
      decoding := by rintro _ ⟨⟩; exact ⟨hst, rfl⟩ }

/-- A host command: refused, or an operation of the unit it speaks to. -/
theorem hostCommand_inv (x : HostCmd) : (hostCommand c x s).Inv := by
  cases x with
  | encStart =>
    simp only [hostCommand, cmdEncStart]
    split
    · exact h
    · exact setEnc_inv h (encStart_inv _) (.inl rfl)
  | encPush p =>
    simp only [hostCommand, cmdEncPush]
    split
    next => exact h
    next hacc =>
      have hrun := enc_run_of_accepted hacc
      have hip : s.enc.ip < (s.enc.pin ++ [p]).length := by
        have hle := h.enc.ip_le (.inl hrun)
        rw [List.length_append, List.length_singleton]
        omega
      exact setEnc_inv h (encPixel_inv (append_pin_inv h.enc) hrun hip) (.inl ((encPixel_status c p _).trans hrun))
  | encFinish =>
    simp only [hostCommand, cmdEncFinish]
    split
    next => exact h
    next hacc => exact setEnc_inv h (encFinish_inv h.enc (enc_run_of_accepted hacc)) (.inr rfl)
  | decStart =>
    simp only [hostCommand, cmdDecStart]
    split
    next hfree => exact setDec_inv_of_free h (decStart_inv h.dec.tin_wf) ((decFree_iff s).1 hfree).1
    next => exact h
  | writeNpix n =>
    simp only [hostCommand, cmdWriteNpix]
    split
    next hacc =>
      obtain ⟨hfree, hrun⟩ := (decFree_iff s).1 hacc
      exact setDec_inv_of_free h (host_write_inv h.dec hrun n s.dec.tlen h.dec.tin_wf) hfree
    next => exact h
  | writeTlen n =>
    simp only [hostCommand, cmdWriteTlen]
    split
    next hacc =>
      obtain ⟨hfree, hrun⟩ := (decFree_iff s).1 hacc
      exact setDec_inv_of_free h (host_write_inv h.dec hrun s.dec.npix n h.dec.tin_wf) hfree
    next => exact h
  | writeTin a bs =>
    simp only [hostCommand, cmdWriteTin]
    split
    next hacc =>
      obtain ⟨hfree, hrun⟩ := (decFree_iff s).1 hacc
      exact setDec_inv_of_free h
        (host_write_inv h.dec hrun s.dec.npix s.dec.tlen (memWrite_wf h.dec.tin_wf a bs)) hfree
    next => exact h
  | writeHdr hdr =>
    simp only [hostCommand, cmdWriteHdr]
    split
    · exact h
    · exact { h with frm := { h.frm with } }
  | encode pixels =>
    simp only [hostCommand, cmdEncode]
    split
    · exact h
    · exact beginEncode_inv h pixels
  | decode file =>
    simp only [hostCommand, cmdDecode]
    split
    · exact h
    · exact beginDecode_inv h file

/-- Power-on reset idles every unit and keeps `TIN`. -/
theorem powerOnReset_inv : (powerOnReset s).Inv where
  enc := enc_inv_of_idle rfl
  dec := dec_inv_of_idle rfl rfl rfl h.dec.tin_wf
  frm := framer_inv_of_no_result (.inl ⟨rfl, rfl⟩) rfl rfl
  encoding := nofun
  decoding := nofun

end

/-- Settles O57: whoever takes the step, the operations it is made of keep the invariant. -/
theorem stepKeepsTheInvariant : Obligations.StepKeepsTheInvariant := by
  unfold Obligations.StepKeepsTheInvariant
  intro s t h hstep
  have h' : (s.setInputs s.inputs.tail).Inv := setInputs_inv h _
  obtain ⟨he, hd⟩ | rfl | hf | ⟨x, rfl⟩ | rfl := step_inv hstep
  · exact decToken_inv h' he hd
  · exact h'
  · exact frmNext_inv h' hf
  · exact hostCommand_inv h' x
  · exact powerOnReset_inv h'

/-- Settles O58: after power-on reset every unit is idle, with nothing in `TIN`. -/
theorem resetMeetsTheInvariant : Obligations.ResetMeetsTheInvariant := by
  unfold Obligations.ResetMeetsTheInvariant
  exact {
    enc := enc_inv_of_idle rfl
    dec := dec_inv_of_idle rfl rfl rfl (by decide)
    frm := framer_inv_of_no_result (.inl ⟨rfl, rfl⟩) rfl rfl
    encoding := nofun
    decoding := nofun }

end Sys2Proof.Proofs.Invariant
end
